-- ==== Sys2Proof/Word.lean ====
section
/-!
DEFINITION. The widths of the engine's values (spec/00_scope.md R5, R6): words, bytes, command
words, digests, blocks and the file of eight state words. All arithmetic on them is `BitVec`'s own,
which wraps, as R10 and 41_compress.md R117 say.
-/

namespace Sys2Proof

/-- A word, 64 bits unsigned (R6): state words, schedule words, counters, `len`. -/
abbrev Word := BitVec 64

/-- A byte, 8 bits unsigned (R6): a payload beat, a cell of `BUF`, a byte of the digest. -/
abbrev Byte := BitVec 8

/-- A command word, 66 bits: `op` in bits 65:64 and `len` in bits 63:0 (30_encoding.md R73). -/
abbrev Command := BitVec 66

/-- A digest as the digest channel carries it, 256 bits (30_encoding.md R76). -/
abbrev Digest := BitVec 256

/-- A block, exactly 128 bytes (00_scope.md R5, `BLOCK_BYTES`). -/
abbrev Block := Vector Byte 128

/-- Eight state words `H[0..7]` (10_state.md R20). -/
abbrev StateWords := Vector Word 8

end Sys2Proof
end

