-- ==== Sys2Proof/Machine/WordFunctions.lean ====
section
/-!
DEFINITION. The functions on words: rotation (spec/00_scope.md R10), the six functions of the block
compressor (41_compress.md R103 to R108), and the big-endian conversions (00_scope.md R9). The spec marks
the formulas of the six functions as from general knowledge (UNVERIFIED, log entry 8).
-/

namespace Sys2Proof.Machine

/-- `ROTR(x, n)`, used for `0 < n < 64` only (00_scope.md R10). -/
def rotr (x : Word) (n : Nat) : Word := (x >>> n) ||| (x <<< (64 - n))

/-- `Ch(x, y, z)` (41_compress.md R103). -/
def ch (x y z : Word) : Word := (x &&& y) ^^^ (~~~x &&& z)

/-- `Maj(x, y, z)` (R104). -/
def maj (x y z : Word) : Word := (x &&& y) ^^^ (x &&& z) ^^^ (y &&& z)

/-- `S0`, the big sigma Σ0 (R105). -/
def bigSigma0 (x : Word) : Word := rotr x 28 ^^^ rotr x 34 ^^^ rotr x 39

/-- `S1`, the big sigma Σ1 (R106). -/
def bigSigma1 (x : Word) : Word := rotr x 14 ^^^ rotr x 18 ^^^ rotr x 41

/-- `s0`, the small sigma σ0: the third amount is the shift (R107). -/
def smallSigma0 (x : Word) : Word := rotr x 1 ^^^ rotr x 8 ^^^ (x >>> 7)

/-- `s1`, the small sigma σ1: the third amount is the shift (R108). -/
def smallSigma1 (x : Word) : Word := rotr x 19 ^^^ rotr x 61 ^^^ (x >>> 6)

/-- `be64` of eight bytes, the first one most significant (00_scope.md R9). -/
def be64 (b0 b1 b2 b3 b4 b5 b6 b7 : Byte) : Word := b0 ++ b1 ++ b2 ++ b3 ++ b4 ++ b5 ++ b6 ++ b7

/-- `BE64(w)`, the eight bytes of a word, most significant first (00_scope.md R9). -/
def bytesBE64 (w : Word) : List Byte :=
  [w.extractLsb' 56 8, w.extractLsb' 48 8, w.extractLsb' 40 8, w.extractLsb' 32 8,
   w.extractLsb' 24 8, w.extractLsb' 16 8, w.extractLsb' 8 8, w.extractLsb' 0 8]

end Sys2Proof.Machine
end

