-- ==== Sys2Proof/Machine/Compress.lean ====
section
/-!
DEFINITION. The block compressor `COMPRESS(Hin, block)` as a pure function
(spec/41_compress.md R100, R110 to R115). Its working variables and schedule are locals (10_state.md R21,
R22; DEDUCED, log entry 16).
-/

namespace Sys2Proof.Machine

/-- The working variables `a … h` (10_state.md R21). -/
structure Working where
  a : Word
  b : Word
  c : Word
  d : Word
  e : Word
  f : Word
  g : Word
  h : Word
deriving DecidableEq, Repr

/-- `W[i] = be64(block[8i .. 8i+7])`, `i` = 0 … 15 (R110). -/
def loadWord (block : Block) (i : Fin 16) : Word :=
  be64 block[8 * i.val] block[8 * i.val + 1] block[8 * i.val + 2] block[8 * i.val + 3]
    block[8 * i.val + 4] block[8 * i.val + 5] block[8 * i.val + 6] block[8 * i.val + 7]

/-- Step 1, the words `W[0..15]` in order (R110). -/
def loadWords (block : Block) : List Word := (List.finRange 16).map (loadWord block)

/-- The next schedule word from those before it, the latest first: with `W[t-1]` at place 0 of `latest`,
this is `W[t] = W[t-16] + s0(W[t-15]) + W[t-7] + s1(W[t-2])` (R111). -/
def nextScheduleWord (latest : List Word) : Word :=
  latest.getD 15 0 + smallSigma0 (latest.getD 14 0) + latest.getD 6 0
    + smallSigma1 (latest.getD 1 0)

/-- Step 2, `n` more schedule words, the latest first (R111). -/
def expandSchedule : Nat → List Word → List Word
  | 0, latest => latest
  | n + 1, latest => expandSchedule n (nextScheduleWord latest :: latest)

/-- The message schedule `W[0..79]` of a block, in order (R110, R111). -/
def schedule (block : Block) : List Word := (expandSchedule 64 (loadWords block).reverse).reverse

/-- `T1 = h + S1(e) + Ch(e,f,g) + K[t] + W[t]` (R114). -/
def roundT1 (v : Working) (k w : Word) : Word := v.h + bigSigma1 v.e + ch v.e v.f v.g + k + w

/-- `T2 = S0(a) + Maj(a,b,c)` (R114). -/
def roundT2 (v : Working) : Word := bigSigma0 v.a + maj v.a v.b v.c

/-- One round with its constant and its schedule word: all eight variables replaced at once (R114). -/
def compressRound (v : Working) (kw : Word × Word) : Working :=
  { a := roundT1 v kw.1 kw.2 + roundT2 v
    b := v.a
    c := v.b
    d := v.c
    e := v.d + roundT1 v kw.1 kw.2
    f := v.e
    g := v.f
    h := v.g }

/-- The working variables before round 0 (R113). -/
def startWorking (hin : StateWords) : Working :=
  ⟨hin[0], hin[1], hin[2], hin[3], hin[4], hin[5], hin[6], hin[7]⟩

/-- The working variables after the 80 rounds, `t` = 0, 1, …, 79 in that order (R114). -/
def finalWorking (hin : StateWords) (block : Block) : Working :=
  (kTable.zip (schedule block)).foldl compressRound (startWorking hin)

/-- Step 4, the feed-forward (R115). -/
def feedForward (hin : StateWords) (v : Working) : StateWords :=
  #v[hin[0] + v.a, hin[1] + v.b, hin[2] + v.c, hin[3] + v.d,
     hin[4] + v.e, hin[5] + v.f, hin[6] + v.g, hin[7] + v.h]

/-- `COMPRESS(Hin, block)` (R100). Irreducible, so that no proof unfolds the 80 rounds by accident. -/
@[irreducible] def compress (hin : StateWords) (block : Block) : StateWords :=
  feedForward hin (finalWorking hin block)

end Sys2Proof.Machine
end

