-- ==== Sys2Proof/Machine/Counters.lean ====
section
/-!
DEFINITION. The length counters as functions of their values (spec/42_update.md R133, 43_finish.md
R152). The sum `total_bytes + len` is exact, a natural number (92_eei_decisions.md D14).
-/

namespace Sys2Proof.Machine

/-- `total_bytes` after `n` more bytes: the sum modulo 2^61 (42_update.md R133). -/
def totalAfter (total : Word) (n : Nat) : Word := BitVec.ofNat 64 ((total.toNat + n) % 2 ^ 61)

/-- `high_bit_count` after `n` more bytes: it grows by the whole units of 2^61 in the sum and wraps
modulo 2^64 (42_update.md R133, 10_state.md R26). -/
def highAfter (total high : Word) (n : Nat) : Word :=
  high + BitVec.ofNat 64 ((total.toNat + n) / 2 ^ 61)

/-- `bitlen_lo = total_bytes << 3` (43_finish.md R152). -/
def bitlenLo (total : Word) : Word := total <<< 3

end Sys2Proof.Machine
end

