-- ==== Sys2Proof/Machine/Memory.lean ====
section
/-!
DEFINITION. The message buffer `BUF[0..127]` as a memory (spec/10_state.md R27, 20_memory.md R50): a
list of (address, byte) cells in one canonical form, its read and its writes.
-/

namespace Sys2Proof.Machine

/-- The buffer's contents: the cells that do not hold what an unlisted address reads as. -/
abbrev Mem := List Host.Cell

/-- What an unlisted address reads as: 0x00, the value every byte of `BUF` has after `RESET` and after
`FINISH` (10_state.md R37, 43_finish.md R159; DEDUCED, log entry 5). -/
def Mem.unlisted : Byte := 0x00

/-- The byte at address `a` (00_scope.md R11, `MemRead(addr, 1)`). -/
def Mem.read : Mem → Nat → Byte
  | [], _ => Mem.unlisted
  | (x, b) :: m, a => if x = a then b else Mem.read m a

/-- Put a cell in its place, addresses rising. -/
def Mem.insert : Mem → Nat → Byte → Mem
  | [], a, v => [(a, v)]
  | (x, b) :: m, a, v =>
    if a < x then (a, v) :: (x, b) :: m
    else if x = a then (a, v) :: m
    else (x, b) :: Mem.insert m a v

/-- Write the byte `v` at address `a` (00_scope.md R11, `MemWrite(addr, 1, v)`). Writing what an
unlisted address reads as removes the cell, so that equal contents are equal lists. -/
def Mem.write (m : Mem) (a : Nat) (v : Byte) : Mem :=
  if v = Mem.unlisted then m.filter (fun c => decide (c.1 ≠ a)) else Mem.insert m a v

/-- Write the bytes `bs` at the addresses `a`, `a + 1`, … in that order. -/
def Mem.writeList : Mem → Nat → List Byte → Mem
  | m, _, [] => m
  | m, a, b :: bs => Mem.writeList (Mem.write m a b) (a + 1) bs

/-- The canonical form from address `lo` up: addresses strictly rising, none below `lo`, all in
`BUF` (below 128), and no cell equal to what an unlisted address reads as. -/
def Mem.wfFrom : Nat → Mem → Bool
  | _, [] => true
  | lo, (x, b) :: m =>
    decide (lo ≤ x) && decide (x < 128) && decide (b ≠ Mem.unlisted) && Mem.wfFrom (x + 1) m

/-- The canonical form of the buffer's contents. -/
def Mem.wf (m : Mem) : Bool := Mem.wfFrom 0 m

end Sys2Proof.Machine
end

