-- ==== Sys2Proof/Machine/State.lean ====
section
/-!
DEFINITION. The state of the engine: the five architectural items of spec/10_state.md R37, the
signal-level items of R36 that outlive a transfer, and the host interface as plain data; the faults
and refusals; the state after `RESET`.
-/

namespace Sys2Proof.Machine

/-- The sequencer's one architectural bit (10_state.md R24). -/
inductive Phase where
  /-- 0: never initialised, reset, or finished. -/
  | idle
  /-- 1: a message is being absorbed. -/
  | active
deriving DecidableEq, Repr

/-- Which of its channels the engine is ready on (10_state.md R36 item (2), 30_encoding.md R72). -/
inductive Stage where
  /-- No command in flight: `cmd_ready` = 1. -/
  | ready
  /-- An `UPDATE` owes payload bytes: `din_ready` = 1. -/
  | absorbing
  /-- A `FINISH` waits for its digest to be taken: `dout_valid` = 1. -/
  | emitting
deriving DecidableEq, Repr

/-- One thing the host offers or does (30_encoding.md R71, R72, R82). -/
inductive HostEvent where
  /-- `rst` = 1 at a clock edge (R83). -/
  | reset
  /-- A command word offered on the command channel. -/
  | command (word : Command)
  /-- A payload byte offered on the data channel (R74). -/
  | beat (data : Byte)
  /-- The host's readiness for one transfer on the digest channel (R76). -/
  | take
deriving DecidableEq, Repr

/-- The state of the engine and of its host interface. -/
structure State where
  /-- The state words `H[0..7]` (10_state.md R20). -/
  h : StateWords
  /-- The message buffer `BUF[0..127]` (R27). -/
  buf : Mem
  /-- `total_bytes`, 64 bits, 61 of them significant (R25). -/
  totalBytes : Word
  /-- `high_bit_count` (R26). -/
  highBitCount : Word
  /-- `phase` (R24). -/
  phase : Phase
  /-- The payload bytes an `UPDATE` in flight still owes (R36 item (1)). -/
  owed : Word
  /-- The digest on the digest channel, until it is transferred (R36 item (3), 30_encoding.md R76). -/
  dout : Option Digest
  /-- The model's own: what the host offers, oldest first (DESIGN CHOICE, log entries 1, 2 and 9). -/
  pending : List HostEvent
  /-- The model's own: the digests the host has taken, oldest first (DESIGN CHOICE, log entry 1). -/
  digests : List Digest
deriving DecidableEq, Repr

/-- The contract violations (60_exceptions.md R170, R172), the engine's only faults. The spec leaves
the behaviour after one undefined, so stopping is safe (DEDUCED, log entry 7). -/
inductive Fault where
  /-- `CV_UPDATE_NOT_ACTIVE`, code 1: raised by `UPDATE` when `phase` = IDLE (42_update.md R132). Safe. -/
  | cvUpdateNotActive
  /-- `CV_FINISH_NOT_ACTIVE`, code 2: raised by `FINISH` when `phase` = IDLE (43_finish.md R151). Safe. -/
  | cvFinishNotActive
  /-- `CV_RESERVED_OP`, code 3: raised by the reserved command (30_encoding.md R78). Safe. -/
  | cvReservedOp
deriving DecidableEq, Repr

/-- Why the model gives an instruction no meaning. -/
inductive Refusal where
  /-- The instruction has no meaning in the model yet: raised by no arm of `exec` now. Safe. -/
  | notModelled (mnemonic : String)
deriving DecidableEq, Repr

/-- The state after `RESET` (10_state.md R37): all architectural state zero, `phase` = IDLE, no command
in flight and no digest held. Nothing offered by the host and no digest taken yet: DESIGN CHOICE, log
entry 1. -/
def State.reset : State :=
  { h := #v[0, 0, 0, 0, 0, 0, 0, 0]
    buf := []
    totalBytes := 0
    highBitCount := 0
    phase := .idle
    owed := 0
    dout := none
    pending := []
    digests := [] }

end Sys2Proof.Machine
end

