-- ==== Sys2Proof/Machine/Ops.lean ====
section
/-!
DEFINITION. The named operations on the state: reads and writes of `BUF`, `COMPRESS_BUF`, the
counters, the digest output, the wipe of the context, `RESET`, and raising a contract violation,
which is all the engine has of an exception (spec/60_exceptions.md R170, R176: nothing is saved, no
mode changes, no vector is fetched; R177: there is no return).
-/

namespace Sys2Proof.Machine

/-- `raise ContractViolation(code)` (60_exceptions.md R170): the step returns a fault. -/
def raiseViolation (f : Fault) : Host.Outcome State Fault Refusal := .fault f

/-- The code numbers of the contract violations (60_exceptions.md R172). -/
def Fault.code : Fault → Nat
  | .cvUpdateNotActive => 1
  | .cvFinishNotActive => 2
  | .cvReservedOp => 3

/-- The encoding of `phase` (10_state.md R24). -/
def Phase.bit : Phase → BitVec 1
  | .idle => 0
  | .active => 1

/-- Go on from a next state; a fault or a refusal stays as it is. -/
def onNext (o : Host.Outcome State Fault Refusal) (f : State → State) :
    Host.Outcome State Fault Refusal :=
  match o with
  | .next s => .next (f s)
  | .fault r => .fault r
  | .refused r => .refused r

/-- `fill`, the occupancy of `BUF`: `total_bytes mod 128` (10_state.md R28). -/
def State.fill (s : State) : Nat := s.totalBytes.toNat % 128

/-- `MemRead(a, 1)` (00_scope.md R11). -/
def State.memRead1 (s : State) (a : Nat) : Byte := Mem.read s.buf a

/-- `MemRead(a, 8)`: eight bytes read as a big-endian word (00_scope.md R11, 20_memory.md R54). -/
def State.memRead8 (s : State) (a : Nat) : Word :=
  be64 (s.memRead1 a) (s.memRead1 (a + 1)) (s.memRead1 (a + 2)) (s.memRead1 (a + 3))
    (s.memRead1 (a + 4)) (s.memRead1 (a + 5)) (s.memRead1 (a + 6)) (s.memRead1 (a + 7))

/-- `MemWrite(a, 1, b)` (00_scope.md R11). -/
def State.memWrite1 (s : State) (a : Nat) (b : Byte) : State :=
  { s with buf := Mem.write s.buf a b }

/-- `MemWrite(a, 8, v)`: the word's eight bytes, big-endian (00_scope.md R11, 20_memory.md R54). -/
def State.memWrite8 (s : State) (a : Nat) (v : Word) : State :=
  { s with buf := Mem.writeList s.buf a (bytesBE64 v) }

/-- `for i in lo..hi-1: MemWrite(i, 1, 0x00)`; no write when `hi ≤ lo` (43_finish.md R154, R155). -/
def State.zeroFrom (s : State) (lo hi : Nat) : State :=
  { s with buf := Mem.writeList s.buf lo (List.replicate (hi - lo) 0x00) }

/-- The 128 bytes of `BUF` as a block (41_compress.md R119). -/
def State.block (s : State) : Block := Vector.ofFn fun i => s.memRead1 i.val

/-- `COMPRESS_BUF`: `H <- COMPRESS(H, BUF)`, the eight words replaced together and nothing else
written (41_compress.md R119). -/
def State.compressBuf (s : State) : State := { s with h := compress s.h s.block }

/-- The counters after `n` more bytes (42_update.md R133). -/
def State.advanceCounters (s : State) (n : Nat) : State :=
  { s with
    totalBytes := totalAfter s.totalBytes n
    highBitCount := highAfter s.totalBytes s.highBitCount n }

/-- Absorb bytes from the local `fill` on: each goes to `BUF[fill]`, and when `fill` reaches 128
`COMPRESS_BUF` runs and `fill` returns to 0 (42_update.md R134). -/
def State.putBytes : List Byte → Nat → State → State
  | [], _, s => s
  | b :: bs, fill, s =>
    if fill + 1 = 128 then State.putBytes bs 0 (s.memWrite1 fill b).compressBuf
    else State.putBytes bs (fill + 1) (s.memWrite1 fill b)

/-- Absorb a payload: the counters once, then the bytes from the old `fill` on (42_update.md R130). -/
def State.absorb (s : State) (payload : List Byte) : State :=
  State.putBytes payload s.fill (s.advanceCounters payload.length)

/-- One payload byte counted: `total_bytes` grows by one, and at 2^61 − 1 it returns to 0 and
`high_bit_count` grows by one (42_update.md R138). -/
def State.countByte (s : State) : State :=
  { s with
    totalBytes := if s.totalBytes = 0x1FFFFFFFFFFFFFFF then 0 else s.totalBytes + 1
    highBitCount :=
      if s.totalBytes = 0x1FFFFFFFFFFFFFFF then s.highBitCount + 1 else s.highBitCount }

/-- `COMPRESS_BUF` when the byte just counted filled the buffer, that is when `fill` = 0 (42_update.md
R138). -/
def State.compressWhenFilled (s : State) : State :=
  { s with h := if s.fill = 0 then compress s.h s.block else s.h }

/-- `BEAT(b)`, one payload byte at signal level (42_update.md R138). -/
def State.beat (s : State) (b : Byte) : State :=
  (s.memWrite1 s.fill b).countByte.compressWhenFilled

/-- The digest as the digest channel carries it, `H[0] ‖ H[1] ‖ H[2] ‖ H[3]` (30_encoding.md R76). -/
def digestWord (h : StateWords) : Digest := h[0] ++ h[1] ++ h[2] ++ h[3]

/-- The digest as bytes, `BE64(H[0]) ++ BE64(H[1]) ++ BE64(H[2]) ++ BE64(H[3])` (43_finish.md R158). -/
def digestBytes (h : StateWords) : List Byte :=
  bytesBE64 h[0] ++ bytesBE64 h[1] ++ bytesBE64 h[2] ++ bytesBE64 h[3]

/-- `emit`: present the digest on the digest output (00_scope.md R11). -/
def State.emit (s : State) (d : Digest) : State := { s with dout := some d }

/-- The context set to zero and `phase` to IDLE (43_finish.md R159). `BUF` all 0x00 is the memory with
nothing listed. -/
def State.wipe (s : State) : State :=
  { s with
    h := #v[0, 0, 0, 0, 0, 0, 0, 0]
    buf := []
    totalBytes := 0
    highBitCount := 0
    phase := .idle }

/-- `RESET` (10_state.md R37, 70_reset_and_hazards.md R193): the reset state from any state; a command
in flight is abandoned and a digest not yet transferred is dropped. What the host offers and what it
has already taken are the host's and stay (DESIGN CHOICE, log entry 4). -/
def State.resetEngine (s : State) : State :=
  { State.reset with pending := s.pending, digests := s.digests }

end Sys2Proof.Machine
end

