-- ==== Sys2Proof/Machine/Flags.lean ====
section
/-!
DEFINITION. The flags. The engine has no condition code and no status flag (spec/10_state.md R34); its
one flag-like bit is `phase` (R24), and this file holds the only test of it (60_exceptions.md R173).
-/

namespace Sys2Proof.Machine

/-- The entry check of `UPDATE` and `FINISH`: outside the contract unless `phase` = ACTIVE, tested
before anything is written (42_update.md R132, 43_finish.md R151, 60_exceptions.md R173). -/
def whenActive (f : Fault) (s : State) (effect : State) : Host.Outcome State Fault Refusal :=
  if s.phase = .active then .next effect else raiseViolation f

end Sys2Proof.Machine
end

