-- ==== Sys2Proof/Machine/Finish.lean ====
section
/-! DEFINITION. `FINISH` (spec/43_finish.md R150 to R164). -/

namespace Sys2Proof.Machine

/-- Steps 2 to 4: the marker, the extra block when fewer than 16 bytes remain free after it, the zero
padding and the length field (R153 to R156). Afterwards `BUF` is the final block. -/
def State.padTail (s : State) : State :=
  let marked := s.memWrite1 s.fill 0x80
  let fill := s.fill + 1
  let fresh := if 128 - fill < 16 then (marked.zeroFrom fill 128).compressBuf else marked
  let padded := if 128 - fill < 16 then fresh.zeroFrom 0 112 else fresh.zeroFrom fill 112
  (padded.memWrite8 112 s.highBitCount).memWrite8 120 (bitlenLo s.totalBytes)

/-- Steps 2 to 5: the padding and the compression of the final block (R157). -/
def State.finalize (s : State) : State := s.padTail.compressBuf

/-- `FINISH`: the phase test, the padding and compressions, the digest of the state words on the digest
output (R158), and the wipe of the context (R159). -/
def execFinish (s : State) : Host.Outcome State Fault Refusal :=
  whenActive .cvFinishNotActive s (s.finalize.emit (digestWord s.finalize.h)).wipe

end Sys2Proof.Machine
end

