-- ==== Sys2Proof/Machine/Init.lean ====
section
/-! DEFINITION. `INIT` (spec/40_init.md R90 to R94). -/

namespace Sys2Proof.Machine

/-- `INIT`: `H <- IV`, both counters to 0, `phase <- ACTIVE`; `BUF` is not written; in any state. -/
def execInit (s : State) : Host.Outcome State Fault Refusal :=
  .next { s with h := iv, totalBytes := 0, highBitCount := 0, phase := .active }

end Sys2Proof.Machine
end

