-- ==== Sys2Proof/Machine/Internal.lean ====
section
/-! DEFINITION. The internal operation `COMPRESS` (spec/41_compress.md R100, R119). -/

namespace Sys2Proof.Machine

/-- `COMPRESS` in the only form the engine uses it, `COMPRESS_BUF` (R119): total, in any state; it reads
neither the counters nor `phase` (R118 (f)). -/
def execCompress (s : State) : Host.Outcome State Fault Refusal := .next s.compressBuf

end Sys2Proof.Machine
end

