-- ==== Sys2Proof/Machine/Reserved.lean ====
section
/-! DEFINITION. The reserved command (spec/30_encoding.md R78). -/

namespace Sys2Proof.Machine

/-- `RSVD`: a contract violation in every state (R78, 60_exceptions.md R172). -/
def execRsvd (_s : State) : Host.Outcome State Fault Refusal := raiseViolation .cvReservedOp

end Sys2Proof.Machine
end

