-- ==== Sys2Proof/Machine/Update.lean ====
section
/-! DEFINITION. `UPDATE` (spec/42_update.md R130 to R137). -/

namespace Sys2Proof.Machine

/-- `UPDATE(payload)`: the phase test, then the counters and the bytes (R130, R132). -/
def execUpdate (payload : List Byte) (s : State) : Host.Outcome State Fault Refusal :=
  whenActive .cvUpdateNotActive s (s.absorb payload)

end Sys2Proof.Machine
end

