-- ==== Sys2Proof/Syntax.lean ====
section
/-!
DEFINITION. The engine's commands, one constructor per row of spec/opcode_table.json.
-/

namespace Sys2Proof

/-- The commands of the engine (spec/30_encoding.md R70, R75, R82) and its one internal operation. -/
inductive Instr where
  /-- The reserved command, `op` = 00 (R78). Its `len` field is not decoded. -/
  | rsvd
  /-- `INIT`, `op` = 01 (40_init.md R90). Its `len` field is ignored (R77). -/
  | init
  /-- `UPDATE`, `op` = 10 (42_update.md R130): `payload` is the byte string absorbed and `len` is its
  length, so that a payload shorter than `len` cannot be written down (R74, R82). -/
  | update (payload : List Byte)
  /-- `FINISH`, `op` = 11 (43_finish.md R150). Its `len` field is ignored (R77). -/
  | finish
  /-- `COMPRESS`, the internal operation (41_compress.md R100), in the one form the engine uses,
  `COMPRESS_BUF` (R119). It has no opcode (R75): no word decodes to it and no word encodes it (DESIGN
  CHOICE, log entry 6). -/
  | compress
deriving DecidableEq, Repr

end Sys2Proof
end

