-- ==== Sys2Proof/Machine/Dispatch.lean ====
section
/-! DEFINITION. One arm per command (spec/30_encoding.md R75, 60_exceptions.md R187 (2)). -/

namespace Sys2Proof.Machine

def exec (i : Instr) (s : State) : Host.Outcome State Fault Refusal :=
  match i with
  | .rsvd => Sys2Proof.Machine.execRsvd s
  | .init => Sys2Proof.Machine.execInit s
  | .update payload => Sys2Proof.Machine.execUpdate payload s
  | .finish => Sys2Proof.Machine.execFinish s
  | .compress => Sys2Proof.Machine.execCompress s

end Sys2Proof.Machine
end

