-- ==== Sys2Proof/WellFormed.lean ====
section
/-!
DEFINITION. Which commands are well formed, and which of them a host can issue.
-/

namespace Sys2Proof

/-- A command is well formed when its operands fit their fields: `len` of an `UPDATE` is in
[0, 2^64) (spec/42_update.md R131, 30_encoding.md R77). The other commands have no operand. -/
def Instr.wf : Instr → Bool
  | .rsvd => true
  | .init => true
  | .update payload => decide (payload.length < 2 ^ 64)
  | .finish => true
  | .compress => true

/-- The payloads an `UPDATE` can carry: byte strings whose length fits `len`, that is `len < 2^64`
(spec/30_encoding.md R82, 42_update.md R131). -/
abbrev Payload := { bytes : List Byte // (Instr.update bytes).wf = true }

/-- The commands a host can issue: all that have an opcode. `COMPRESS` has none
(spec/30_encoding.md R75). -/
def Instr.issuable : Instr → Bool
  | .rsvd => true
  | .init => true
  | .update _ => true
  | .finish => true
  | .compress => false

end Sys2Proof
end

