-- ==== Sys2Proof/Decode.lean ====
section
/-!
DEFINITION. The decoder of command words with their payload beats, and after it the encoder, both
written from spec/30_encoding.md R73 to R78.
-/

namespace Sys2Proof

/-- What the decoder reads from a command word and the beats offered on the data channel. -/
structure Decoded where
  /-- The command; for an `UPDATE` its payload is what the offered beats supply of it. -/
  instr : Instr
  /-- The beats the command does not take. -/
  rest : List Byte
  /-- How many payload bytes the command still owes (R74); 0 for a command that is complete. -/
  owed : Word
deriving DecidableEq, Repr

/-- The `op` field, bits 65:64 (R73). -/
def opField (w : Command) : BitVec 2 := w.extractLsb' 64 2

/-- The `len` field, bits 63:0, used as it stands (R73, R77). -/
def lenField (w : Command) : Word := w.extractLsb' 0 64

/-- The decoder. `op` alone decides the command (R75); it is total, since all four values of `op` are
assigned and `len` has no illegal value (R78). An `UPDATE` takes the first `len` beats, in order (R74). -/
def decode (w : Command) (beats : List Byte) : Decoded :=
  if opField w = 0b00#2 then ⟨.rsvd, beats, 0⟩
  else if opField w = 0b01#2 then ⟨.init, beats, 0⟩
  else if opField w = 0b10#2 then
    ⟨.update (beats.take (lenField w).toNat), beats.drop (lenField w).toNat,
      BitVec.ofNat 64 ((lenField w).toNat - beats.length)⟩
  else ⟨.finish, beats, 0⟩

/-- Why a number is no command word. -/
inductive DecodeReject where
  /-- The number needs more than 66 bits; a command word is always 66 bits (R79). Safe. -/
  | widerThanACommandWord
deriving DecidableEq, Repr

/-- The decoder on a number of any size: a number of more than 66 bits is rejected by name (R79). -/
def decodeNat (w : Nat) (beats : List Byte) : Except DecodeReject Decoded :=
  if w < 2 ^ 66 then .ok (decode (BitVec.ofNat 66 w) beats) else .error .widerThanACommandWord

/-- The command word `op ‖ len` (R73). -/
def commandWord (op : BitVec 2) (len : Word) : Command := op ++ len

/-- The encoder: the canonical command word (`len` = 0 where it is ignored, R77) and the beats that
follow it (R74). `COMPRESS` has no encoding (R75). -/
def encode : Instr → Option (Command × List Byte)
  | .rsvd => some (commandWord 0b00#2 0, [])
  | .init => some (commandWord 0b01#2 0, [])
  | .update payload => some (commandWord 0b10#2 (BitVec.ofNat 64 payload.length), payload)
  | .finish => some (commandWord 0b11#2 0, [])
  | .compress => none

/-- The payload beats of zeros that follow the command word `w`: as many as its `len` if it is an
`UPDATE`, none otherwise. -/
def zeroBeats (w : Command) : List Byte :=
  if opField w = 0b10#2 then List.replicate (lenField w).toNat 0 else []

/-- The command the decoder reads from a command word given as a number, every payload bit above it
zero. `nbits` does not matter, since a command word is always 66 bits (R79). -/
def decodeTableWord (_nbits w : Nat) : Option Instr :=
  match decodeNat w (zeroBeats (BitVec.ofNat 66 w)) with
  | .ok d => some d.instr
  | .error _ => none

end Sys2Proof
end

