-- ==== Sys2Proof/Machine/Operands.lean ====
section
/-!
DEFINITION. The operands: how a command's payload is gathered from what the host offers
(spec/30_encoding.md R72, R74, 42_update.md R131). The only operand form is the payload of `len`
beats; `len` itself is decoded in Sys2Proof/Decode.lean. That a payload ends at the host's next `RESET` is
a DESIGN CHOICE (log entry 9).
-/

namespace Sys2Proof.Machine

/-- The payload bytes the host offers before its next `RESET`, in order. -/
def offeredBeats : List HostEvent → List Byte
  | [] => []
  | .reset :: _ => []
  | .beat b :: es => b :: offeredBeats es
  | .command _ :: es => offeredBeats es
  | .take :: es => offeredBeats es

/-- What is still offered once the first `n` of those payload bytes are taken. -/
def dropBeats : Nat → List HostEvent → List HostEvent
  | _, [] => []
  | _, .reset :: es => .reset :: es
  | n, .beat b :: es => if n = 0 then .beat b :: es else dropBeats (n - 1) es
  | n, .command w :: es => .command w :: dropBeats n es
  | n, .take :: es => .take :: dropBeats n es

/-- What is still offered once the host's first readiness to take a digest before its next `RESET` is
used up; none when there is no such readiness. -/
def takeOffer : List HostEvent → Option (List HostEvent)
  | [] => none
  | .reset :: _ => none
  | .take :: es => some es
  | .command w :: es => (takeOffer es).map (HostEvent.command w :: ·)
  | .beat b :: es => (takeOffer es).map (HostEvent.beat b :: ·)

/-- The number of payload bytes an instruction holds. -/
def payloadLength : Instr → Nat
  | .rsvd => 0
  | .init => 0
  | .update payload => payload.length
  | .finish => 0
  | .compress => 0

end Sys2Proof.Machine
end

