-- ==== Sys2Proof/Machine/Sequencer.lean ====
section
/-!
DEFINITION. The sequencer: on which channel the engine is ready, which of the host's offers is the next
transfer, and what each transfer does (spec/30_encoding.md R71, R72, R74, R76, R83; 20_memory.md R63;
60_exceptions.md R187 (1)).
-/

namespace Sys2Proof.Machine

/-- The sub-step the sequencer is in at the end of a transfer (10_state.md R36 item (2)). -/
def State.stage (s : State) : Stage :=
  if s.dout ≠ none then .emitting else if s.owed ≠ 0 then .absorbing else .ready

/-- `cmd_ready`: no command is in flight (30_encoding.md R71, R72). -/
def State.cmdReady (s : State) : Bool := decide (s.stage = .ready)

/-- `din_ready`: an `UPDATE` in flight owes bytes (R71, R72). -/
def State.dinReady (s : State) : Bool := decide (s.stage = .absorbing)

/-- `dout_valid`: a digest is offered (R71, R72). -/
def State.doutValid (s : State) : Bool := decide (s.stage = .emitting)

/-- `dout_data`: the digest, zero whenever `dout_valid` = 0 (R71). -/
def State.doutData (s : State) : Digest := s.dout.getD 0

/-- Whether the engine takes an offer now: `RESET` always, the others by their channel's ready. -/
def State.accepts (s : State) : HostEvent → Bool
  | .reset => true
  | .command _ => s.cmdReady
  | .beat _ => s.dinReady
  | .take => s.doutValid

/-- The first offer that satisfies `p`, and the offers without it (DESIGN CHOICE, log entry 9). -/
def firstOffer (p : HostEvent → Bool) : List HostEvent → Option (HostEvent × List HostEvent)
  | [] => none
  | e :: es => if p e then some (e, es) else (firstOffer p es).map fun x => (x.1, e :: x.2)

/-- A payload byte transferred to an `UPDATE` in flight (R74, 42_update.md R138). -/
def State.acceptBeat (s : State) (b : Byte) : State := { s.beat b with owed := s.owed - 1 }

/-- The transfer on the digest channel: the host has the digest, the engine keeps no copy (R76). -/
def State.transferDigest (s : State) : State :=
  match s.dout with
  | some d => { s with dout := none, digests := s.digests ++ [d] }
  | none => s

/-- A digest just presented is transferred in the same command when the host is ready for it
(00_scope.md R12, 70_reset_and_hazards.md R198; DEDUCED, log entry 12). -/
def State.handOver (s : State) : State :=
  match s.dout, takeOffer s.pending with
  | some _, some es => { s with pending := es }.transferDigest
  | _, _ => s

/-- The state in which an accepted command runs: the payload it takes is taken off the offers, and what
it still owes is noted (R74; DEDUCED, log entry 3). -/
def State.fetchState (s : State) (w : Command) (offers : List HostEvent) : State :=
  let d := decode w (offeredBeats offers)
  { s with owed := d.owed, pending := dropBeats (payloadLength d.instr) offers }

/-- The command read from an accepted command word and the payload offered with it. -/
def fetchInstr (w : Command) (offers : List HostEvent) : Instr :=
  (decode w (offeredBeats offers)).instr

/-- The engine's next move. -/
inductive Move where
  /-- No offer is taken: the engine keeps its state (60_exceptions.md R185; DEDUCED, log entry 3). -/
  | wait
  /-- A transfer other than that of a command word, or a `RESET`. -/
  | transfer (s : State)
  /-- A command word is accepted: the command and the state it runs in. -/
  | run (i : Instr) (s : State)
deriving DecidableEq, Repr

/-- The engine's next move: the first offer it is ready for (R72). -/
def State.nextMove (s : State) : Move :=
  match firstOffer s.accepts s.pending with
  | none => .wait
  | some (.reset, es) => .transfer { s with pending := es }.resetEngine
  | some (.command w, es) => .run (fetchInstr w es) (s.fetchState w es)
  | some (.beat b, es) => .transfer ({ s with pending := es }.acceptBeat b)
  | some (.take, es) => .transfer { s with pending := es }.transferDigest

/-- A state whose next move is to accept the command word `w`: no command in flight, the word first
among the host's offers, and after it the payload beats of zeros its `len` asks for (log entry 2). -/
def State.offering (s : State) (w : Command) : State :=
  { s with
    owed := 0
    dout := none
    pending := .command w :: ((zeroBeats w).map HostEvent.beat ++ s.pending) }

end Sys2Proof.Machine
end

