-- ==== Sys2Proof/Machine/Step.lean ====
section
/-!
DEFINITION. One step: one whole command, one `RESET`, or one later transfer of a command in flight
(spec/00_scope.md R12, 30_encoding.md R82).
-/

namespace Sys2Proof.Machine

/-- One step of the engine. -/
def step (s : State) : Host.Outcome State Fault Refusal :=
  match s.nextMove with
  | .wait => .next s
  | .transfer t => .next t
  | .run i t => onNext (exec i t) State.handOver

/-- `s` with the command whose bits are `w` placed where `step` fetches its next command. A number of
more than 66 bits is no command word and places nothing (DESIGN CHOICE, log entry 11). -/
def State.withFetchWord (s : State) (_nbits w : Nat) : State :=
  if w < 2 ^ 66 then s.offering (BitVec.ofNat 66 w) else s

end Sys2Proof.Machine
end

