-- ==== Sys2Proof/Machine/Observe.lean ====
section
/-!
DEFINITION. Observation functions of the model, none of them a port of the engine: the byte count
(spec/10_state.md R31), the live bytes (R30) and the context image (R32).
-/

namespace Sys2Proof.Machine

/-- `N = high_bit_count · 2^61 + total_bytes`, the 125-bit byte counter (10_state.md R31). -/
def State.byteCount (s : State) : Nat := s.highBitCount.toNat * 2 ^ 61 + s.totalBytes.toNat

/-- The 128 bytes of `BUF`, address 0 first (10_state.md R27). -/
def State.bufBytes (s : State) : List Byte := (List.range 128).map s.memRead1

/-- The live bytes `BUF[0..fill)` (10_state.md R30). -/
def State.live (s : State) : List Byte := (List.range s.fill).map s.memRead1

/-- `CTX_IMAGE`, the 208-byte image of the context (10_state.md R32). -/
def State.ctxImage (s : State) : List Byte :=
  bytesBE64 s.h[0] ++ bytesBE64 s.h[1] ++ bytesBE64 s.h[2] ++ bytesBE64 s.h[3]
    ++ bytesBE64 s.h[4] ++ bytesBE64 s.h[5] ++ bytesBE64 s.h[6] ++ bytesBE64 s.h[7]
    ++ s.bufBytes ++ bytesBE64 s.totalBytes ++ bytesBE64 s.highBitCount

end Sys2Proof.Machine
end

