-- ==== Sys2Proof/Machine/Reference.lean ====
section
/-!
DEFINITION. What the engine computes, said without the engine: the blocks of a byte string, the padded
message, and the end-to-end function (spec/43_finish.md R160, R161). The meanings do not use these;
the statements compare the engine with them.
-/

namespace Sys2Proof.Machine

/-- The 128 bytes of a byte string from offset `128·j` on (00_scope.md R8). -/
def blockAt (bytes : List Byte) (j : Nat) : Block :=
  Vector.ofFn fun i => bytes.getD (128 * j + i.val) 0

/-- The complete 128-byte blocks of a byte string, in order (42_update.md R136). -/
def blocksOf (bytes : List Byte) : List Block := (List.range (bytes.length / 128)).map (blockAt bytes)

/-- The state words after a sequence of blocks (41_compress.md R120). -/
def compressBlocks (h : StateWords) (blocks : List Block) : StateWords := blocks.foldl compress h

/-- `zeros((111 − n) mod 128)`, the zero padding after `n` bytes and the marker (43_finish.md R160). -/
def zeroPadding (n : Nat) : List Byte := List.replicate ((111 - (n : Int)) % 128).toNat 0x00

/-- `BE128(v)`, the 16-byte big-endian form (43_finish.md R161). -/
def bytesBE128 (v : Nat) : List Byte :=
  bytesBE64 (BitVec.ofNat 64 (v / 2 ^ 64)) ++ bytesBE64 (BitVec.ofNat 64 v)

/-- The bytes `FINISH` compresses: the live tail, the marker, the zeros and the two halves of the length
(43_finish.md R160). -/
def State.paddedTail (s : State) : List Byte :=
  s.live ++ [0x80] ++ zeroPadding s.fill ++ bytesBE64 s.highBitCount ++ bytesBE64 (bitlenLo s.totalBytes)

/-- The padded message (43_finish.md R161). -/
def padMessage (m : List Byte) : List Byte :=
  m ++ [0x80] ++ zeroPadding m.length ++ bytesBE128 (8 * m.length)

/-- The eight state words of a whole message (43_finish.md R161). -/
def messageWords (m : List Byte) : StateWords := compressBlocks iv (blocksOf (padMessage m))

/-- The 32-byte digest of a message: the first 32 bytes of the state words (43_finish.md R161). -/
def messageDigest (m : List Byte) : List Byte := digestBytes (messageWords m)

end Sys2Proof.Machine
end

