-- ==== Sys2Proof/Machine/Alternatives.lean ====
section
/-!
DEFINITION. Two implementations the spec allows beside the model's own: the 16-word circular message
schedule (spec/41_compress.md R112) and the block-wise absorption that compresses whole blocks straight
from the payload (42_update.md R139). The meanings do not use these; statements compare them.
-/

namespace Sys2Proof.Machine

/-- `W[t]` from the 16 slots: slot `t` itself for `t < 16`, otherwise the recurrence on the slots
`(t−16)`, `(t−15)`, `(t−7)`, `(t−2)`, each modulo 16 (R112). -/
def circularWord (slots : Vector Word 16) (t : Nat) : Word :=
  if t < 16 then slots[t % 16]
  else slots[(t - 16) % 16] + smallSigma0 slots[(t - 15) % 16] + slots[(t - 7) % 16]
    + smallSigma1 slots[(t - 2) % 16]

/-- A round that computes `W[t]` into slot `t mod 16` just before it is used (R112). -/
def circularRound (x : Vector Word 16 × Working) (kt : Word × Nat) : Vector Word 16 × Working :=
  (x.1.set (kt.2 % 16) (circularWord x.1 kt.2), compressRound x.2 (kt.1, circularWord x.1 kt.2))

/-- `COMPRESS` with the circular schedule (R112). -/
def compressCircular (hin : StateWords) (block : Block) : StateWords :=
  feedForward hin
    (kTable.zipIdx.foldl circularRound (Vector.ofFn (loadWord block), startWorking hin)).2

/-- The payload bytes that top up a partly filled buffer (R139). -/
def topUp (fill : Nat) (payload : List Byte) : List Byte :=
  if fill = 0 then [] else payload.take (128 - fill)

/-- The payload bytes after the top-up (R139). -/
def afterTopUp (fill : Nat) (payload : List Byte) : List Byte :=
  if fill = 0 then payload else payload.drop (128 - fill)

/-- The block-wise absorption: top up a partly filled buffer and compress it when it is full, compress
every further whole block straight from the payload, copy the tail into the buffer (R139). -/
def State.absorbBlockwise (s : State) (payload : List Byte) : State :=
  let counted := s.advanceCounters payload.length
  if s.fill + payload.length < 128 then
    { counted with buf := Mem.writeList s.buf s.fill payload }
  else
    let topped : State := { counted with buf := Mem.writeList s.buf s.fill (topUp s.fill payload) }
    let first := if s.fill = 0 then topped else topped.compressBuf
    let rest := afterTopUp s.fill payload
    { first with
      h := compressBlocks first.h (blocksOf rest)
      buf := Mem.writeList first.buf 0 (rest.drop (128 * (rest.length / 128))) }

end Sys2Proof.Machine
end

