-- ==== Sys2Proof/Machine/Ports.lean ====
section
/-!
DEFINITION. The signal-level interface (spec/30_encoding.md R71, R72, R74, R76, R83): the ports, and
what a rising clock edge at which something is sampled does. The engine's own work between two
transfers takes no edge here, since no rule reads a cycle count (70_reset_and_hazards.md R204; DESIGN
CHOICE, log entry 10).
-/

namespace Sys2Proof.Machine

/-- The input ports, as sampled at one rising edge of `clk` (R71). -/
structure PortIn where
  rst : Bool
  cmdValid : Bool
  cmdOp : BitVec 2
  cmdLen : Word
  dinValid : Bool
  dinData : Byte
  doutReady : Bool
deriving DecidableEq, Repr

/-- The output ports (R71). -/
structure PortOut where
  cmdReady : Bool
  dinReady : Bool
  doutValid : Bool
  doutData : Digest
deriving DecidableEq, Repr

/-- What the engine drives on its output ports (R71, R72). -/
def State.portOut (s : State) : PortOut :=
  { cmdReady := s.cmdReady, dinReady := s.dinReady, doutValid := s.doutValid, doutData := s.doutData }

/-- One rising edge: `RESET` if `rst` is 1, whatever else is offered (R83); otherwise the transfer on the
channel the engine is ready on, if the host offers one there (R72). An `UPDATE` is accepted before any
of its beats (60_exceptions.md R173), which follow at later edges (R74). -/
def State.edge (s : State) (p : PortIn) : Host.Outcome State Fault Refusal :=
  if p.rst then .next s.resetEngine
  else
    match s.stage with
    | .ready =>
      if p.cmdValid then
        exec (decode (commandWord p.cmdOp p.cmdLen) []).instr
          { s with owed := (decode (commandWord p.cmdOp p.cmdLen) []).owed }
      else .next s
    | .absorbing => if p.dinValid then .next (s.acceptBeat p.dinData) else .next s
    | .emitting => if p.doutReady then .next s.transferDigest else .next s

/-- A run of edges, stopping at the first fault. -/
def State.edges : List PortIn → State → Host.Outcome State Fault Refusal
  | [], s => .next s
  | p :: ps, s =>
    match s.edge p with
    | .next t => State.edges ps t
    | .fault r => .fault r
    | .refused r => .refused r

end Sys2Proof.Machine
end

