-- ==== Sys2Proof/Machine/Program.lean ====
section
/-!
DEFINITION. Command sequences as a host writes them (spec/30_encoding.md R80, R81): the lines, the
payload shorthands, and the events each line stands for.
-/

namespace Sys2Proof.Machine

/-- A line of a command sequence (R80), with the pseudo-command `HASH` (R81). The expected digest of a
`FINISH` or `HASH` line is no operand and does not stand here. -/
inductive Line where
  | reset
  | init
  | update (payload : List Byte)
  | finish
  | hash (payload : List Byte)
deriving DecidableEq, Repr

/-- `rep(b, n)`: `n` bytes equal to `b` (R81). -/
def rep (b : Byte) (n : Nat) : List Byte := List.replicate n b

/-- `pat(s, n)`: the bytes `(s + i) mod 256` for `i` = 0 … n−1 (R81). -/
def pat (s : Byte) (n : Nat) : List Byte := (List.range n).map fun i => s + BitVec.ofNat 8 i

/-- The events of one command: its word and then its beats (R80). -/
def instrEvents (i : Instr) : List HostEvent :=
  match encode i with
  | some (w, beats) => .command w :: beats.map HostEvent.beat
  | none => []

/-- The events of a line. A `FINISH` is offered with the host ready to take the digest
(70_reset_and_hazards.md R198); `HASH` is `INIT`, `UPDATE`, `FINISH` (R81). -/
def Line.events : Line → List HostEvent
  | .reset => [.reset]
  | .init => instrEvents .init
  | .update payload => instrEvents (.update payload)
  | .finish => instrEvents .finish ++ [.take]
  | .hash payload =>
    instrEvents .init ++ instrEvents (.update payload) ++ instrEvents .finish ++ [.take]

/-- The events of a command sequence. -/
def programEvents : List Line → List HostEvent
  | [] => []
  | l :: ls => l.events ++ programEvents ls

end Sys2Proof.Machine
end

