-- ==== Sys2Proof/Safety.lean ====
section
/-!
DEFINITION. What the claims say of states and runs: the invariants (spec/10_state.md R29), the launch
states (R33), the call order (30_encoding.md R82), and runs of events.
-/

namespace Sys2Proof.Machine

/-- Invariant (I-a) of 10_state.md R29: `total_bytes < 2^61`. -/
abbrev State.CountersInRange (s : State) : Prop := s.totalBytes.toNat < 2 ^ 61

/-- What the sequencer guarantees: bytes are owed only in the ACTIVE phase and with no digest held, and a
digest is held only in the IDLE phase (42_update.md R132, 43_finish.md R159). -/
abbrev State.SequencerConsistent (s : State) : Prop :=
  (s.owed ≠ 0 → s.phase = .active ∧ s.dout = none) ∧ (s.dout ≠ none → s.phase = .idle)

/-- The invariant of the machine: (I-a), the canonical form of the buffer, and a consistent sequencer. -/
abbrev State.Inv (s : State) : Prop :=
  s.CountersInRange ∧ Mem.wf s.buf = true ∧ s.SequencerConsistent

/-- The whole context is zero (10_state.md R39). -/
abbrev State.ContextZero (s : State) : Prop :=
  s.h = #v[0, 0, 0, 0, 0, 0, 0, 0] ∧ s.buf = [] ∧ s.totalBytes = 0 ∧ s.highBitCount = 0

/-- Invariant (I-d) of 10_state.md R29: the context is zero whenever `phase` = IDLE. -/
abbrev State.IdleZero (s : State) : Prop := s.phase = .idle → s.ContextZero

/-- Invariant (I-c) of 10_state.md R29 for a message `m`: `H` is `COMPRESS` folded from `IV` over its complete
blocks, the live bytes are its unprocessed tail, and the counters hold its length modulo 2^125 (R31). -/
def State.HoldsMessage (s : State) (m : List Byte) : Prop :=
  s.h = compressBlocks iv (blocksOf m) ∧ s.live = m.drop (128 * (m.length / 128)) ∧
    s.byteCount = m.length % 2 ^ 125

/-- Invariant (I-c) of 10_state.md R29: an ACTIVE context holds the byte string absorbed since `INIT`. -/
def State.HoldsSomeMessage (s : State) : Prop := s.phase = .active → ∃ m, s.HoldsMessage m

/-- The command words still offered, in order. -/
def offeredCommands : List HostEvent → List Command
  | [] => []
  | .command w :: es => w :: offeredCommands es
  | .reset :: es => offeredCommands es
  | .beat _ :: es => offeredCommands es
  | .take :: es => offeredCommands es

/-- Absorb the chunks of a message one `UPDATE` each. -/
def runChunks : List (List Byte) → State → Host.Outcome State Fault Refusal
  | [], s => .next s
  | c :: cs, s =>
    match exec (.update c) s with
    | .next t => runChunks cs t
    | .fault r => .fault r
    | .refused r => .refused r

/-- The alphabet of host events (30_encoding.md R82): the payload of an `UPDATE` is a byte string of length
`len < 2^64`, so that no longer one is an event. -/
inductive Event where
  | reset
  | init
  | update (payload : Payload)
  | finish
  | rsvd
deriving DecidableEq, Repr

/-- One event: `RESET`, or one whole command; the digest a `FINISH` yields is delivered, the last of
`digests` (30_encoding.md R82). -/
def Event.apply : Event → State → Host.Outcome State Fault Refusal
  | .reset, s => .next s.resetEngine
  | .init, s => exec .init s
  | .update payload, s => exec (.update payload.val) s
  | .finish, s => onNext (exec .finish s) State.transferDigest
  | .rsvd, s => exec .rsvd s

/-- A run of events, stopping at the first fault. -/
def runTrace : List Event → State → Host.Outcome State Fault Refusal
  | [], s => .next s
  | e :: es, s =>
    match e.apply s with
    | .next t => runTrace es t
    | .fault r => .fault r
    | .refused r => .refused r

/-- The traces of one `INIT`. -/
def initCalls : Language Event := {tr | tr = [.init]}

/-- The traces of one `UPDATE`, of any payload the alphabet has. -/
def updateCalls : Language Event := {tr | ∃ payload : Payload, tr = [.update payload]}

/-- The traces of one `FINISH`. -/
def finishCalls : Language Event := {tr | tr = [.finish]}

/-- The traces of one `RESET`. -/
def resetEvents : Language Event := {tr | tr = [.reset]}

/-- `INIT UPDATE*` (30_encoding.md R82). -/
def messageCalls : Language Event := initCalls * KStar.kstar updateCalls

/-- `( (INIT UPDATE*)+ FINISH )*` and then an unfinished `(INIT UPDATE*)*` (30_encoding.md R82). -/
def orderedCalls : Language Event :=
  KStar.kstar (messageCalls * KStar.kstar messageCalls * finishCalls) * KStar.kstar messageCalls

/-- The strict call order, with `RESET` allowed anywhere, each one returning the trace to the start of the
pattern (30_encoding.md R82). -/
def callOrder : Language Event := KStar.kstar (orderedCalls * resetEvents) * orderedCalls

end Sys2Proof.Machine
end

