-- ==== Sys2Proof/Certificates/Slice0/Obligations.lean ====
section
/-!
DEFINITION. The statements for the provers. Each docstring names the rule or section of spec/ it
formalises; where a statement rests on a choice of the model's, it names the log entry.
-/

open Sys2Proof Sys2Proof.Machine

/-! ### Encoding (spec/30_encoding.md) -/

/-- Sections "Formats" and "Opcode map": decoding the encoding of a well-formed command, with any further beats behind it, gives the
command back, takes exactly its own beats and leaves nothing owed. -/
def Obligations.DecodeInvertsEncode : Prop :=
  ∀ (i : Instr) (w : Command) (beats rest : List Byte),
    i.wf = true → encode i = some (w, beats) → decode w (beats ++ rest) = ⟨i, rest, 0⟩

/-- Sections "Formats" and "Opcode map", the other direction: a word whose ignored `len` is the canonical 0, with all its payload
offered, encodes back to itself and the beats it took. -/
def Obligations.EncodeInvertsDecode : Prop :=
  ∀ (w : Command) (beats : List Byte),
    (opField w ≠ 0b10#2 → lenField w = 0) → (decode w beats).owed = 0 →
      encode (decode w beats).instr = some (w, beats.take (lenField w).toNat)

/-- Sections "Formats" and "Opcode map": `cmd[65:64]` alone selects the command, whatever `len` is; every word is `op ‖ len`; an
`UPDATE` takes the first `len` bytes, `len` as it stands; and no word decodes to the internal
`COMPRESS`, which has no encoding. -/
def Obligations.OpFieldAloneSelectsTheCommand : Prop :=
  (∀ (len : Word) (beats : List Byte),
    decode (commandWord 0b00#2 len) beats = ⟨.rsvd, beats, 0⟩ ∧
    decode (commandWord 0b01#2 len) beats = ⟨.init, beats, 0⟩ ∧
    decode (commandWord 0b10#2 len) beats
      = ⟨.update (beats.take len.toNat), beats.drop len.toNat,
          BitVec.ofNat 64 (len.toNat - beats.length)⟩ ∧
    decode (commandWord 0b11#2 len) beats = ⟨.finish, beats, 0⟩) ∧
  (∀ w : Command, commandWord (opField w) (lenField w) = w) ∧
  (∀ (w : Command) (beats : List Byte), (decode w beats).instr ≠ .compress) ∧
  encode .compress = none

/-- Section "Opcode map": five words written out from the encoding table. -/
def Obligations.SampleCommandWordsDecode : Prop :=
  decode 0x00000000000000000#66 [] = ⟨.rsvd, [], 0⟩ ∧
  decode 0x10000000000000000#66 [] = ⟨.init, [], 0⟩ ∧
  decode 0x100000000DEADBEEF#66 [] = ⟨.init, [], 0⟩ ∧
  decode 0x20000000000000003#66 [0x61, 0x62, 0x63] = ⟨.update [0x61, 0x62, 0x63], [], 0⟩ ∧
  decode 0x30000000000000000#66 [] = ⟨.finish, [], 0⟩

/-! ### The reserved command (30_encoding.md R78) -/

/-- R78: a command word with `op` = 0b00 raises CV_RESERVED_OP in every state, and no other word is
reserved. -/
def Obligations.ReservedCommandIsAViolation : Prop :=
  ∀ (w : Command) (beats : List Byte) (s : State),
    (opField w = 0b00#2 → exec (decode w beats).instr s = .fault .cvReservedOp) ∧
    (opField w ≠ 0b00#2 → (decode w beats).instr ≠ .rsvd)

/-! ### INIT (40_init.md) -/

/-- R90: `INIT` in any state sets `H` to `IV`, both counters to zero and `phase` to ACTIVE, and writes
nothing else. `op` = 01 is `INIT` whatever `len` is, and its canonical word is 0x1_0000000000000000. -/
def Obligations.InitEstablishesAFreshContext : Prop :=
  (∀ s : State,
    exec .init s
      = .next { s with h := iv, totalBytes := 0, highBitCount := 0, phase := .active }) ∧
  (∀ (len : Word) (beats : List Byte), (decode (commandWord 0b01#2 len) beats).instr = .init) ∧
  encode .init = some (0x10000000000000000#66, [])

/-- Section INIT, the table of `IV`: the state words after `INIT`, whatever they were. The spec marks the
values as from general knowledge (log entry 8). -/
def Obligations.InitLoadsTheStandardWords : Prop :=
  ∀ s : State, ∃ t, exec .init s = .next t ∧
    t.h = #v[0x22312194FC2BF72C, 0x9F555FA3C84C64C2, 0x2393B86B6F53B151, 0x963877195940EABD,
             0x96283EE2A88EFFE3, 0xBE5E1E2553863992, 0x2B0199FC2C85B8AA, 0x0EB72DDC81C52CA2]

/-- Section INIT, idempotence: `INIT` is legal in both phases, produces no digest, and twice is the same as once. -/
def Obligations.InitIsIdempotent : Prop :=
  ∀ s : State, ∃ t, exec .init s = .next t ∧ exec .init t = .next t ∧
    t.dout = s.dout ∧ t.digests = s.digests

/-! ### UPDATE (42_update.md) -/

/-- R132: in the IDLE phase every `UPDATE`, the empty one too, is CV_UPDATE_NOT_ACTIVE; in the ACTIVE phase
it completes. -/
def Obligations.UpdateNeedsTheActivePhase : Prop :=
  ∀ (payload : List Byte) (s : State),
    (s.phase = .idle → exec (.update payload) s = .fault .cvUpdateNotActive) ∧
    (s.phase = .active → ∃ t, exec (.update payload) s = .next t)

/-- R133: the exact sum is folded at 2^61. The units added are at most 8 for a `len` below 2^64, and
`N′ = (N + len) mod 2^125`. -/
def Obligations.UpdateFoldsTheCounters : Prop :=
  ∀ (payload : List Byte) (s : State), s.phase = .active → s.CountersInRange →
    ∃ t, exec (.update payload) s = .next t ∧
      t.totalBytes.toNat = (s.totalBytes.toNat + payload.length) % 2 ^ 61 ∧
      t.highBitCount.toNat
        = (s.highBitCount.toNat + (s.totalBytes.toNat + payload.length) / 2 ^ 61) % 2 ^ 64 ∧
      (payload.length < 2 ^ 64 → (s.totalBytes.toNat + payload.length) / 2 ^ 61 ≤ 8) ∧
      t.byteCount = (s.byteCount + payload.length) % 2 ^ 125

/-- Section UPDATE, "State after UPDATE, in closed form": the blocks compressed are the 128-byte slices of
the live bytes followed by the payload, the live bytes afterwards are the rest, and nothing but `H`,
`BUF` and the counters changes. -/
def Obligations.UpdateClosedForm : Prop :=
  ∀ (payload : List Byte) (s : State), s.phase = .active →
    ∃ t, exec (.update payload) s = .next t ∧
      t.h = compressBlocks s.h (blocksOf (s.live ++ payload)) ∧
      (s.fill + payload.length < 128 → t.h = s.h) ∧
      t.fill = (s.fill + payload.length) % 128 ∧
      t.live = (s.live ++ payload).drop (128 * ((s.fill + payload.length) / 128)) ∧
      t.phase = s.phase ∧ t.owed = s.owed ∧ t.dout = s.dout ∧ t.pending = s.pending ∧
      t.digests = s.digests

/-- Sections "Address spaces" of 20_memory.md and UPDATE: payload byte `j` goes to `BUF[(fill + j) mod 128]`,
the last 128 of them stay there, and every address no payload byte goes to reads as before. Some of those
bytes are stale, and what stale bytes hold is the spec's one fixed behaviour (log entry 17). -/
def Obligations.UpdateWritesOnlyItsPositions : Prop :=
  ∀ (payload : List Byte) (s : State), s.phase = .active →
    ∃ t, exec (.update payload) s = .next t ∧
      (∀ a : Nat, (∀ j < payload.length, (s.fill + j) % 128 ≠ a) → t.memRead1 a = s.memRead1 a) ∧
      (∀ j < payload.length, payload.length ≤ j + 128 →
        t.memRead1 ((s.fill + j) % 128) = payload.getD j 0)

/-- R135: with `phase` = ACTIVE an `UPDATE` of no bytes changes nothing. -/
def Obligations.EmptyUpdateChangesNothing : Prop :=
  ∀ s : State, s.phase = .active → s.CountersInRange → exec (.update []) s = .next s

/-- Section UPDATE, streaming equivalence: any partition of a byte string into `UPDATE`s leaves the same
state as one `UPDATE` of the whole. -/
def Obligations.UpdateIsStreaming : Prop :=
  ∀ (chunks : List (List Byte)) (s : State), s.phase = .active → s.CountersInRange →
    runChunks chunks s = exec (.update chunks.flatten) s

/-- Section UPDATE, beat-level refinement: an `UPDATE` is one `BEAT` per payload byte, in order. -/
def Obligations.UpdateIsItsBeats : Prop :=
  ∀ (payload : List Byte) (s : State), s.phase = .active → s.CountersInRange →
    exec (.update payload) s = .next (payload.foldl State.beat s)

/-- Section UPDATE, block-wise and zero-copy forms: compressing whole blocks straight from the payload gives
the same `H`, counters, `phase` and live bytes; only stale bytes may differ. -/
def Obligations.BlockwiseAbsorptionAgrees : Prop :=
  ∀ (payload : List Byte) (s : State), s.phase = .active →
    ∃ t, exec (.update payload) s = .next t ∧
      (s.absorbBlockwise payload).h = t.h ∧
      (s.absorbBlockwise payload).totalBytes = t.totalBytes ∧
      (s.absorbBlockwise payload).highBitCount = t.highBitCount ∧
      (s.absorbBlockwise payload).phase = t.phase ∧
      (s.absorbBlockwise payload).live = t.live

/-! ### FINISH (43_finish.md) -/

/-- Section FINISH, precondition: `FINISH` in the IDLE phase is CV_FINISH_NOT_ACTIVE; directly after `INIT` it is inside the contract
and yields the digest of the empty message. The digest is read on the digest output, where `exec` leaves
it; its transfer is the step's (log entry 12). -/
def Obligations.FinishNeedsTheActivePhase : Prop :=
  ∀ s : State,
    (s.phase = .idle → exec .finish s = .fault .cvFinishNotActive) ∧
    (∃ t u, exec .init s = .next t ∧ exec .finish t = .next u ∧
      u.dout = some (digestWord (messageWords [])))

/-- Section FINISH, the padded message in closed form: `FINISH` compresses the live tail with its padding,
presents the digest of the result, sets the context to zero and `phase` to IDLE, and changes nothing
else. The digest is still on the digest output when `exec` ends; its transfer is the step's (log entry
12). -/
def Obligations.FinishCompressesThePaddedTail : Prop :=
  ∀ s : State, s.phase = .active →
    exec .finish s
      = .next { s with
          h := #v[0, 0, 0, 0, 0, 0, 0, 0]
          buf := []
          totalBytes := 0
          highBitCount := 0
          phase := .idle
          dout := some (digestWord (compressBlocks s.h (blocksOf s.paddedTail))) }

/-- Section FINISH, steps 3 to 5: the padded tail is one block when the tail is 0 to 111 bytes and two when it is 112 to 127. -/
def Obligations.PaddedTailIsOneOrTwoBlocks : Prop :=
  ∀ s : State,
    (s.fill ≤ 111 → (blocksOf s.paddedTail).length = 1 ∧ s.paddedTail.length = 128) ∧
    (112 ≤ s.fill → (blocksOf s.paddedTail).length = 2 ∧ s.paddedTail.length = 256)

/-- Section FINISH, step 1: `total_bytes << 3` loses nothing, and with `high_bit_count` above it is eight times
the byte count. -/
def Obligations.LengthFieldCountsTheBits : Prop :=
  ∀ s : State, s.CountersInRange →
    (bitlenLo s.totalBytes).toNat = 8 * s.totalBytes.toNat ∧
    s.highBitCount.toNat * 2 ^ 64 + (bitlenLo s.totalBytes).toNat = 8 * s.byteCount

/-- R156: in the final block bytes 112 to 119 are `BE64(high_bit_count)` and bytes 120 to 127
`BE64(bitlen_lo)`. -/
def Obligations.FinalBlockHoldsTheLengthField : Prop :=
  ∀ (s : State) (i : Nat), i < 8 →
    s.padTail.memRead1 (112 + i) = (bytesBE64 s.highBitCount).getD i 0 ∧
    s.padTail.memRead1 (120 + i) = (bytesBE64 (bitlenLo s.totalBytes)).getD i 0

/-- Sections "The message buffer" and FINISH, stale bytes: no digest depends on a stale byte. Two ACTIVE states that differ only in
stale bytes give the same digest after any payload. -/
def Obligations.StaleBytesReachNoDigest : Prop :=
  ∀ (s s' : State) (payload : List Byte), s.phase = .active → s'.phase = .active →
    s.h = s'.h → s.totalBytes = s'.totalBytes → s.highBitCount = s'.highBitCount →
    s.live = s'.live →
    ∃ t t' u u', exec (.update payload) s = .next t ∧ exec (.update payload) s' = .next t' ∧
      exec .finish t = .next u ∧ exec .finish t' = .next u' ∧ u.dout = u'.dout

/-- Sections "Formats" and FINISH, step 6: byte `i` of the digest is bits 255−8i : 248−8i of the digest word, and is byte
`i mod 8` of `BE64(H[i/8])`; there are 32. -/
def Obligations.DigestIsFourWordsBigEndian : Prop :=
  ∀ (h : StateWords), (digestBytes h).length = 32 ∧
    ∀ (k : Fin 4) (j : Fin 8),
      (digestWord h).extractLsb' (248 - 8 * (8 * k.val + j.val)) 8 = (bytesBE64 h[k.val]).getD j.val 0 ∧
      (digestBytes h).getD (8 * k.val + j.val) 0 = (bytesBE64 h[k.val]).getD j.val 0

/-- Section FINISH, zeroisation: after `FINISH` the context image is 208 zero bytes, `phase` is IDLE, and the state is the reset
state but for the digest, taken from `H` before the wipe, and the host's side of the interface. The
compressor's temporaries are locals of `compress`, so that nothing of them is left to clear. The digest is
still on the digest output when `exec` ends; its transfer is the step's (log entry 12). -/
def Obligations.FinishZeroesTheContext : Prop :=
  ∀ s : State, s.phase = .active →
    ∃ t, exec .finish s = .next t ∧ t.ctxImage = List.replicate 208 0 ∧ t.phase = .idle ∧
      t.dout = some (digestWord s.finalize.h) ∧
      t = { State.reset with
            owed := s.owed, dout := t.dout, pending := s.pending, digests := s.digests }

/-- Section FINISH, end-to-end function: from any state, `INIT`, any `UPDATE`s and `FINISH` emit the digest
of the concatenated message, for a message of fewer than 2^125 bytes. The digest is read on the digest
output, where `exec` leaves it; its transfer is the step's (log entry 12). -/
def Obligations.MessageIsHashedEndToEnd : Prop :=
  ∀ (s : State) (chunks : List (List Byte)), chunks.flatten.length < 2 ^ 125 →
    ∃ t u v, exec .init s = .next t ∧ runChunks chunks t = .next u ∧ exec .finish u = .next v ∧
      v.dout = some (digestWord (messageWords chunks.flatten))

/-- Section FINISH, end-to-end function, last sentence: a message of `n` bytes costs `n/128 + 1` blocks
when `n mod 128` is at most 111 and one more otherwise. -/
def Obligations.MessageCostsItsBlocks : Prop :=
  ∀ m : List Byte,
    (m.length % 128 ≤ 111 → (blocksOf (padMessage m)).length = m.length / 128 + 1) ∧
    (112 ≤ m.length % 128 → (blocksOf (padMessage m)).length = m.length / 128 + 2)

/-- Invariant (I-c) of 10_state.md and the chaining law of 41_compress.md: after `INIT` and any `UPDATE`s,
`H` is `COMPRESS` folded from `IV` over the message's complete blocks, the live bytes are its
unprocessed tail, and the counters hold its length. -/
def Obligations.ActiveContextHoldsTheMessage : Prop :=
  ∀ (s : State) (chunks : List (List Byte)), chunks.flatten.length < 2 ^ 125 →
    ∃ t u, exec .init s = .next t ∧ runChunks chunks t = .next u ∧
      u.h = compressBlocks iv (blocksOf chunks.flatten) ∧
      u.live = chunks.flatten.drop (128 * (chunks.flatten.length / 128)) ∧
      u.byteCount = chunks.flatten.length ∧ u.CountersInRange ∧ u.phase = .active

/-- Invariant (I-c) of 10_state.md, where it starts: after `INIT` the context holds the empty message. -/
def Obligations.InitHoldsTheEmptyMessage : Prop :=
  ∀ s : State, ∃ t, exec .init s = .next t ∧ t.HoldsMessage [] ∧ t.CountersInRange

/-- Invariant (I-c) of 10_state.md, over one `UPDATE`: a context that holds `m` holds `m` followed by the
payload afterwards, in every state and for messages of any length. -/
def Obligations.UpdateExtendsTheMessageHeld : Prop :=
  ∀ (payload m : List Byte) (s : State), s.phase = .active → s.CountersInRange → s.HoldsMessage m →
    ∃ t, exec (.update payload) s = .next t ∧ t.HoldsMessage (m ++ payload) ∧ t.phase = .active ∧
      t.CountersInRange

/-- Section FINISH, end-to-end function, over one `FINISH`: a context that holds a message of fewer than 2^125
bytes yields its digest. The digest is read on the digest output (log entry 12). -/
def Obligations.FinishDigestsTheMessageHeld : Prop :=
  ∀ (m : List Byte) (s : State), s.phase = .active → s.CountersInRange → s.HoldsMessage m →
    m.length < 2 ^ 125 →
    ∃ t, exec .finish s = .next t ∧ t.dout = some (digestWord (messageWords m))

/-! ### COMPRESS (41_compress.md) -/

/-- R119: `COMPRESS_BUF` replaces the eight state words by `COMPRESS(H, BUF)`, in any state, and writes
nothing else. -/
def Obligations.CompressBufReplacesOnlyTheStateWords : Prop :=
  ∀ s : State,
    exec .compress s
      = .next { s with h := compress s.h (Vector.ofFn fun i : Fin 128 => Mem.read s.buf i.val) }

/-- R110, R111: the schedule has 80 words; the first 16 are the block's big-endian words and the others
follow the recurrence. -/
def Obligations.ScheduleFollowsTheRecurrence : Prop :=
  ∀ block : Block, (schedule block).length = 80 ∧
    (∀ i : Fin 16, (schedule block).getD i.val 0
      = be64 block[8 * i.val] block[8 * i.val + 1] block[8 * i.val + 2] block[8 * i.val + 3]
          block[8 * i.val + 4] block[8 * i.val + 5] block[8 * i.val + 6] block[8 * i.val + 7]) ∧
    (∀ t, 16 ≤ t → t < 80 → (schedule block).getD t 0
      = (schedule block).getD (t - 16) 0 + smallSigma0 ((schedule block).getD (t - 15) 0)
        + (schedule block).getD (t - 7) 0 + smallSigma1 ((schedule block).getD (t - 2) 0))

/-- R113, R114, R115: `COMPRESS` is the 80 rounds from the state words, each with the `T1` and `T2` of the
rule, followed by the addition of the state words. -/
def Obligations.CompressIsEightyRounds : Prop :=
  ∀ (hin : StateWords) (block : Block), ∃ v : Nat → Working,
    v 0 = ⟨hin[0], hin[1], hin[2], hin[3], hin[4], hin[5], hin[6], hin[7]⟩ ∧
    (∀ t < 80, ∀ T1 T2 : Word,
      T1 = (v t).h + bigSigma1 (v t).e + ch (v t).e (v t).f (v t).g + kTable.getD t 0
        + (schedule block).getD t 0 →
      T2 = bigSigma0 (v t).a + maj (v t).a (v t).b (v t).c →
      v (t + 1) = ⟨T1 + T2, (v t).a, (v t).b, (v t).c, (v t).d + T1, (v t).e, (v t).f, (v t).g⟩) ∧
    compress hin block
      = #v[hin[0] + (v 80).a, hin[1] + (v 80).b, hin[2] + (v 80).c, hin[3] + (v 80).d,
           hin[4] + (v 80).e, hin[5] + (v 80).f, hin[6] + (v 80).g, hin[7] + (v 80).h]

/-- Section "The four steps", allowed implementation of the schedule: the 16-word circular schedule gives the same compression. -/
def Obligations.CircularScheduleAgrees : Prop :=
  ∀ (hin : StateWords) (block : Block), compressCircular hin block = compress hin block

/-- Section "Word functions": `Ch` takes the bit of `y` where `x` has a 1 and that of `z` where it has a 0,
`Maj` the bit at least two of the three hold; with the corners the section lists. The spec marks the
two formulas as from general knowledge (log entry 8). -/
def Obligations.ChooseAndMajorityBitByBit : Prop :=
  ∀ x y z : Word,
    (∀ i < 64, (ch x y z).getLsbD i = (if x.getLsbD i then y.getLsbD i else z.getLsbD i)) ∧
    (∀ i < 64, (maj x y z).getLsbD i
      = ((x.getLsbD i && y.getLsbD i) || (x.getLsbD i && z.getLsbD i)
          || (y.getLsbD i && z.getLsbD i))) ∧
    ch 0 y z = z ∧ ch 0xFFFFFFFFFFFFFFFF y z = y ∧ ch x y y = y ∧
    maj x x z = x ∧ maj 0 y z = y &&& z ∧ maj 0xFFFFFFFFFFFFFFFF y z = y ||| z

/-- Section "Word functions", with the rotation of 00_scope.md: the bits of the four sigma functions. The
spec marks the XORs, and which amounts are shifts, as from general knowledge (log entry 8). -/
def Obligations.SigmaFunctionsBitByBit : Prop :=
  ∀ (x : Word) (i : Nat), i < 64 →
    (∀ n, 0 < n → n < 64 → (rotr x n).getLsbD i = x.getLsbD ((i + n) % 64)) ∧
    (bigSigma0 x).getLsbD i
      = ((x.getLsbD ((i + 28) % 64) ^^ x.getLsbD ((i + 34) % 64)) ^^ x.getLsbD ((i + 39) % 64)) ∧
    (bigSigma1 x).getLsbD i
      = ((x.getLsbD ((i + 14) % 64) ^^ x.getLsbD ((i + 18) % 64)) ^^ x.getLsbD ((i + 41) % 64)) ∧
    (smallSigma0 x).getLsbD i
      = ((x.getLsbD ((i + 1) % 64) ^^ x.getLsbD ((i + 8) % 64))
          ^^ (decide (i + 7 < 64) && x.getLsbD (i + 7))) ∧
    (smallSigma1 x).getLsbD i
      = ((x.getLsbD ((i + 19) % 64) ^^ x.getLsbD ((i + 61) % 64))
          ^^ (decide (i + 6 < 64) && x.getLsbD (i + 6)))

/-- Section "Round constants": `K[t]` is the first 64 bits of the fractional part of the cube root of the
`(t+1)`-th prime, that is `floor(cbrt(p · 2^192)) mod 2^64`. -/
def Obligations.RoundConstantsAreCubeRoots : Prop :=
  kTable.length = 80 ∧
  ∀ t < 80, ∃ c : Nat, c ^ 3 ≤ Nat.nth Nat.Prime t * 2 ^ 192 ∧
    Nat.nth Nat.Prime t * 2 ^ 192 < (c + 1) ^ 3 ∧ kTable.getD t 0 = BitVec.ofNat 64 c

/-- R9: `BE64` is the eight bytes of a word, most significant first, `be64` the sum of its bytes by powers
of 256, and the two conversions are inverse. -/
def Obligations.BigEndianConversionsInvert : Prop :=
  (∀ b0 b1 b2 b3 b4 b5 b6 b7 : Byte,
    (be64 b0 b1 b2 b3 b4 b5 b6 b7).toNat
      = b0.toNat * 2 ^ 56 + b1.toNat * 2 ^ 48 + b2.toNat * 2 ^ 40 + b3.toNat * 2 ^ 32
        + b4.toNat * 2 ^ 24 + b5.toNat * 2 ^ 16 + b6.toNat * 2 ^ 8 + b7.toNat ∧
    bytesBE64 (be64 b0 b1 b2 b3 b4 b5 b6 b7) = [b0, b1, b2, b3, b4, b5, b6, b7]) ∧
  (∀ w : Word,
    bytesBE64 w = [w.extractLsb' 56 8, w.extractLsb' 48 8, w.extractLsb' 40 8, w.extractLsb' 32 8,
                   w.extractLsb' 24 8, w.extractLsb' 16 8, w.extractLsb' 8 8, w.extractLsb' 0 8] ∧
    be64 (w.extractLsb' 56 8) (w.extractLsb' 48 8) (w.extractLsb' 40 8) (w.extractLsb' 32 8)
      (w.extractLsb' 24 8) (w.extractLsb' 16 8) (w.extractLsb' 8 8) (w.extractLsb' 0 8) = w)

/-! ### Contract violations and access (60_exceptions.md, 10_state.md) -/

/-- Section "Contract violations": a command faults exactly when it is the reserved one or an `UPDATE` or `FINISH` in the IDLE
phase, with the code of the section's table, and no command is refused. -/
def Obligations.ViolationsAreExactlyTheContract : Prop :=
  (∀ (i : Instr) (s : State) (f : Fault),
    exec i s = .fault f ↔
      (i = .rsvd ∧ f = .cvReservedOp) ∨
      ((∃ payload, i = .update payload) ∧ s.phase = .idle ∧ f = .cvUpdateNotActive) ∨
      (i = .finish ∧ s.phase = .idle ∧ f = .cvFinishNotActive)) ∧
  (∀ (i : Instr) (s : State) (r : Refusal), exec i s ≠ .refused r) ∧
  Fault.cvUpdateNotActive.code = 1 ∧ Fault.cvFinishNotActive.code = 2 ∧ Fault.cvReservedOp.code = 3

/-- Section "Reset values and access summary" of 10_state.md: which command may write which state. A command
that completes is not the reserved one. -/
def Obligations.CommandsWriteOnlyTheirState : Prop :=
  ∀ (i : Instr) (s t : State), exec i s = .next t →
    i ≠ .rsvd ∧
    (t.phase ≠ s.phase → (i = .init ∧ t.phase = .active) ∨ (i = .finish ∧ t.phase = .idle)) ∧
    (i = .compress → t = { s with h := t.h }) ∧
    (i = .init → t.buf = s.buf ∧ t.dout = s.dout) ∧
    (i ≠ .finish → t.dout = s.dout) ∧
    t.owed = s.owed ∧ t.pending = s.pending ∧ t.digests = s.digests

/-- Section "Textual syntax": the traces that run from the reset state without a contract violation are exactly
those of the strict call order, `RESET` allowed anywhere, and every other trace ends in a contract violation.
The alphabet has an `UPDATE` for every payload of fewer than 2^64 bytes and for no longer one. -/
def Obligations.TracesInCallOrderAreThoseThatRun : Prop :=
  ∀ trace : List Event,
    ((∃ t, runTrace trace State.reset = .next t) ↔ trace ∈ callOrder) ∧
    ((∃ t, runTrace trace State.reset = .next t) ∨ ∃ f, runTrace trace State.reset = .fault f)

/-- R151, for the whole command, digest transferred: `FINISH` in the IDLE phase is CV_FINISH_NOT_ACTIVE; directly
after `INIT` it is inside the contract and delivers the digest of the empty message. -/
def Obligations.FinishAfterInitDeliversTheEmptyDigest : Prop :=
  ∀ s : State,
    (s.phase = .idle → Event.finish.apply s = .fault .cvFinishNotActive) ∧
    (∃ t u, exec .init s = .next t ∧ Event.finish.apply t = .next u ∧ u.dout = none ∧
      u.digests = s.digests ++ [digestWord (messageWords [])])

/-- R159, for the whole command, digest transferred: with no bytes owed, the state after `FINISH` is the reset
state but for the host's side, to which the digest taken from `H` before the wipe was delivered; its
context image is 208 zero bytes. The compressor's temporaries are locals of `compress`. -/
def Obligations.DeliveredFinishLeavesTheResetState : Prop :=
  ∀ s : State, s.phase = .active → s.owed = 0 →
    ∃ t, Event.finish.apply s = .next t ∧ t.ctxImage = List.replicate 208 0 ∧ t.phase = .idle ∧
      t = { State.reset with
            pending := s.pending, digests := s.digests ++ [digestWord s.finalize.h] }

/-! ### Reset, sequencer, steps -/

/-- R37: `RESET` in any state, a command in flight or not, puts `H`, `BUF`, both counters and `phase` to
zero, clears `dout_data`, abandons the command without a digest, and leaves a context image of 208
zero bytes; `FINISH` leaves the same five items. The compressor's temporaries are locals of `compress`. -/
def Obligations.ResetPutsEverythingToZero : Prop :=
  (∀ (s : State) (es : List HostEvent), s.pending = .reset :: es →
    ∃ t, step s = .next t ∧
      t.h = #v[0, 0, 0, 0, 0, 0, 0, 0] ∧ (∀ a, t.memRead1 a = 0) ∧ t.totalBytes = 0 ∧
      t.highBitCount = 0 ∧ t.phase = .idle ∧ t.stage = .ready ∧ t.doutData = 0 ∧
      t.digests = s.digests ∧ t.ctxImage = List.replicate 208 0) ∧
  (∀ s : State, s.phase = .active →
    ∃ t, exec .finish s = .next t ∧
      t.h = #v[0, 0, 0, 0, 0, 0, 0, 0] ∧ (∀ a, t.memRead1 a = 0) ∧ t.totalBytes = 0 ∧
      t.highBitCount = 0 ∧ t.phase = .idle)

/-- Sections "Reset values and access summary" and "Reset and start-up": the whole state after `RESET`. That
what the host still offers and has already taken stays is the model's choice (log entry 4). -/
def Obligations.ResetFromAnyState : Prop :=
  ∀ (s : State) (es : List HostEvent), s.pending = .reset :: es →
    step s = .next { State.reset with pending := es, digests := s.digests }

/-- Sections "Ports" and "Formats". The model's choices are the offers as a list (log entry 2), the missing
beats owed (entry 3), the first acceptable offer and the payload gathered past command words (entry 9),
and the hand-over in the same step (entry 12). When the first offer the engine is ready for is a command
word, the step is `exec` of the command decoded from it and the beats offered, in the state with those
beats taken and the missing ones owed; a digest the host is ready for is then handed over. -/
def Obligations.StepRunsTheDecodedCommand : Prop :=
  ∀ (s : State) (w : Command) (es : List HostEvent) (i : Instr) (rest : List Byte) (owed : Word),
    firstOffer s.accepts s.pending = some (.command w, es) →
    decode w (offeredBeats es) = ⟨i, rest, owed⟩ →
    step s
      = onNext (exec i { s with owed := owed, pending := dropBeats (payloadLength i) es })
          State.handOver

/-- The invariants hold in the reset state. -/
def Obligations.ResetMeetsTheInvariant : Prop :=
  State.reset.Inv ∧ State.reset.IdleZero ∧ State.reset.HoldsSomeMessage

/-- Invariants (I-a) and (I-b) of 10_state.md with the canonical form of the buffer and a consistent
sequencer: every step keeps them, from every state that has them. -/
def Obligations.StepKeepsTheInvariant : Prop :=
  ∀ s t : State, s.Inv → step s = .next t → t.Inv

/-- Invariant (I-d) of 10_state.md: every step keeps the context zero whenever `phase` = IDLE. -/
def Obligations.StepKeepsTheIdleContextZero : Prop :=
  ∀ s t : State, s.Inv → s.IdleZero → step s = .next t → t.IdleZero

/-- Invariant (I-c) of 10_state.md: every step, a beat of an `UPDATE` in flight too, keeps the context of an
ACTIVE engine that of some message: `H` folded from `IV` over its complete blocks, the live bytes its
tail, the counters its length. -/
def Obligations.StepKeepsAMessageHeld : Prop :=
  ∀ s t : State, s.Inv → s.HoldsSomeMessage → step s = .next t → t.HoldsSomeMessage

/-- R63: from the acceptance of a command until the last byte of its payload is absorbed or its digest is
transferred, `cmd_ready` is low, and a command offered at an edge makes no difference to what the edge
does, so that a second command cannot overtake the first. -/
def Obligations.CommandChannelIsHeldOff : Prop :=
  ∀ (s : State) (p : PortIn), s.owed ≠ 0 ∨ s.dout ≠ none →
    s.portOut.cmdReady = false ∧ s.edge p = s.edge { p with cmdValid := false }

/-- Section "Ordering and synchronisation" of 20_memory.md: while an `UPDATE` owes bytes or a digest is not
transferred, `cmd_ready` is low and no command word is accepted: the step completes and the words
offered stay as they were. Otherwise `cmd_ready` is high. The model's choices are that the step
completes also when nothing is taken (log entry 3), that the offers not taken stay in place (entry 9),
and that a `RESET` keeps them (entry 4). -/
def Obligations.CommandsWaitForTheOneInFlight : Prop :=
  ∀ s : State,
    (s.owed ≠ 0 ∨ s.dout ≠ none →
      s.portOut.cmdReady = false ∧
      ∃ t, step s = .next t ∧ offeredCommands t.pending = offeredCommands s.pending) ∧
    (s.owed = 0 → s.dout = none → s.portOut.cmdReady = true)

/-- Sections "Formats" and "Hazards", progress, log entry 3: an `UPDATE` that owes bytes waits unchanged while no
beat and no `RESET` is offered, and with a beat first among the offers absorbs it and owes one less. -/
def Obligations.IncompleteUpdateWaitsForItsBeats : Prop :=
  ∀ s : State, s.stage = .absorbing →
    (offeredBeats s.pending = [] → HostEvent.reset ∉ s.pending → step s = .next s) ∧
    (∀ (b : Byte) (es : List HostEvent), s.pending = .beat b :: es →
      ∃ t, step s = .next t ∧ t = { (s.beat b) with owed := t.owed, pending := es } ∧
        t.owed.toNat + 1 = s.owed.toNat)

/-- Sections "Formats" and "Hazards", taking the digest: a digest waits until the host takes it, is
transferred once, and afterwards `dout_data` is zero. The model's choices are that a waiting step
answers the same state (log entry 3) and that a readiness is used up by one transfer (entry 9). -/
def Obligations.DigestWaitsUntilTaken : Prop :=
  ∀ (s : State) (d : Digest), s.dout = some d →
    (takeOffer s.pending = none → HostEvent.reset ∉ s.pending → step s = .next s) ∧
    (∀ es : List HostEvent, s.pending = .take :: es →
      step s = .next { s with dout := none, pending := es, digests := s.digests ++ [d] }) ∧
    ({ s with dout := none, digests := s.digests ++ [d] } : State).doutData = 0

/-- `HASH payload` (30_encoding.md, "Textual syntax") through the machine's own steps: with its events the
only offers and no command in flight, three steps end in the reset state with the digest taken. The
model's choices are the offers as a list (log entry 2), the payload gathered from them (entry 9) and the
transfer of the digest in the step of `FINISH` (entry 12). -/
def Obligations.HashLineRunsInThreeSteps : Prop :=
  ∀ (s : State) (m : List Byte), s.stage = .ready → m.length < 2 ^ 64 →
    s.pending = (Line.hash m).events →
    Host.Core.run core 3 s
      = .next { State.reset with digests := s.digests ++ [digestWord (messageWords m)] }

/-! ### Signal level (30_encoding.md R71, R72, R83) -/

/-- Section "Ports": in every state of the model the engine is ready on exactly one channel, and `dout_data`
is zero whenever `dout_valid` = 0. That no state has none ready is the model's choice (log entry 10): the
engine's own work takes no edges, where hardware at work, while `COMPRESS` runs, is ready on none. -/
def Obligations.ExactlyOneChannelIsReady : Prop :=
  ∀ s : State,
    (s.portOut.cmdReady.toNat + s.portOut.dinReady.toNat + s.portOut.doutValid.toNat = 1) ∧
    (s.portOut.doutValid = false → s.portOut.doutData = 0)

/-- Section "Ports", its rule on `rst`: `rst` = 1 at an edge performs `RESET` whatever else is
offered, and no transfer happens. That the host's side stays is the model's choice (log entry 4). -/
def Obligations.ResetPinOverridesTransfers : Prop :=
  ∀ (s : State) (p : PortIn), p.rst = true →
    s.edge p = .next { State.reset with pending := s.pending, digests := s.digests }

/-- Sections "Ports" and "Formats" and the beat-level refinement of 42_update.md: an `UPDATE` accepted at one
edge and its beats at later edges, with any number of edges without a beat between them, ends in the
state of the whole command. Further commands may be offered while bytes are owed. That every beat offered
while bytes are owed is transferred at its own edge is the model's choice (log entry 10). -/
def Obligations.PortLevelUpdateRefinesTheCommand : Prop :=
  ∀ (s : State) (first : PortIn) (ps : List PortIn),
    s.stage = .ready → s.phase = .active → s.CountersInRange →
    first.rst = false → first.cmdValid = true → first.cmdOp = 0b10#2 →
    (∀ p ∈ ps, p.rst = false) →
    (∀ (k : Nat) (hk : k < ps.length), ps[k].cmdValid = true →
      ((ps.take k).filter fun p => p.dinValid).length < first.cmdLen.toNat) →
    ((ps.filter fun p => p.dinValid).length = first.cmdLen.toNat) →
    s.edges (first :: ps) = exec (.update ((ps.filter fun p => p.dinValid).map PortIn.dinData)) s

/-- Sections "Ports" and "Hazards": a `FINISH` accepted at one edge holds its digest through any number of
edges at which the host is not ready, whatever else it offers, and is complete at the edge at which it is.
That the digest can be taken at the very next edge is the model's choice (log entry 10). -/
def Obligations.PortLevelFinishHoldsItsDigest : Prop :=
  ∀ (s : State) (first last : PortIn) (ps : List PortIn),
    s.stage = .ready → s.phase = .active →
    first.rst = false → first.cmdValid = true → first.cmdOp = 0b11#2 →
    (∀ p ∈ ps, p.rst = false ∧ p.doutReady = false) →
    last.rst = false → last.doutReady = true →
    s.edges (first :: (ps ++ [last]))
      = .next { State.reset with
          pending := s.pending
          digests := s.digests ++ [digestWord (compressBlocks s.h (blocksOf s.paddedTail))] }

/-- Section "Context image and launch states": the context image is 208 bytes, with `H` at 0x00, `BUF` at
0x40, `total_bytes` at 0xC0 and `high_bit_count` at 0xC8, words big-endian. -/
def Obligations.ContextImageLayout : Prop :=
  ∀ s : State, s.ctxImage.length = 208 ∧
    (∀ k : Fin 8, (s.ctxImage.drop (8 * k.val)).take 8 = bytesBE64 s.h[k.val]) ∧
    (∀ i < 128, s.ctxImage.getD (0x40 + i) 0 = s.memRead1 i) ∧
    (s.ctxImage.drop 0xC0).take 8 = bytesBE64 s.totalBytes ∧
    s.ctxImage.drop 0xC8 = bytesBE64 s.highBitCount
end

