-- ==== Sys2Proof/Config.lean ====
section
/-!
DEFINITION. The open parameters of the spec (spec/00_scope.md R5 `T_*`, 93_implementation_defined.md
U14). No rule reads one of them and no definition of the model does: they are constants without a
value, so that nothing can be proved about them. The parameters R5 fixes (64, 8, 128, 16, 80, 32, 61)
stand as literals where a rule uses them (DESIGN CHOICE, log entry 15).
-/

namespace Sys2Proof

/-- `T_ROUND`, cycles of one round of `COMPRESS`: open (70_reset_and_hazards.md R204). -/
opaque Config.tRound : Nat

/-- `T_BEAT`, cycles of one payload beat: open (R204). -/
opaque Config.tBeat : Nat

/-- `T_INIT`, cycles of one `INIT`: open (R204). -/
opaque Config.tInit : Nat

/-- `T_WIPE`, cycles of the wipe of the context: open (R204). -/
opaque Config.tWipe : Nat

/-- Whether a build samples `rst` synchronously: open (30_encoding.md R83). -/
opaque Config.resetIsSynchronous : Bool

/-- Where an integrator places the ports in a system address map: open (20_memory.md R59). -/
opaque Config.busPlacement : Nat

end Sys2Proof
end

