-- ==== Sys2Proof/Laws/Memory.lean ====
section
/-!
SUPPORT. The laws of the buffer's memory: a read after a write, writes elsewhere, runs of writes, the
canonical form, and that equal contents are equal lists.
-/

namespace Sys2Proof.Machine

@[simp] theorem Mem.read_nil (a : Nat) : Mem.read [] a = Mem.unlisted := rfl

theorem Mem.read_cons (x : Nat) (b : Byte) (m : Mem) (a : Nat) :
    Mem.read ((x, b) :: m) a = if x = a then b else Mem.read m a := rfl

theorem Mem.read_insert (m : Mem) (a : Nat) (v : Byte) (i : Nat) :
    Mem.read (Mem.insert m a v) i = if a = i then v else Mem.read m i := by
  induction m with
  | nil => rfl
  | cons c m ih =>
    obtain ⟨x, b⟩ := c
    simp only [Mem.insert]
    split_ifs with h1 h2 h3 h4 <;> simp_all [Mem.read_cons]

theorem Mem.read_filter_ne (m : Mem) (a i : Nat) :
    Mem.read (m.filter fun c => decide (c.1 ≠ a)) i = if a = i then Mem.unlisted else Mem.read m i := by
  induction m with
  | nil => simp
  | cons c m ih =>
    obtain ⟨x, b⟩ := c
    by_cases hx : x = a
    · subst hx
      simp only [ne_eq, decide_not, decide_true, Bool.not_true, List.filter_cons, Bool.false_eq_true,
        if_false, Mem.read_cons] at ih ⊢
      rw [ih]
      split_ifs <;> rfl
    · have : (decide ((x, b).1 ≠ a)) = true := by simpa using hx
      rw [List.filter_cons, this, if_pos rfl, Mem.read_cons, Mem.read_cons, ih]
      split_ifs <;> simp_all

/-- A read after a write: the value written at its address, the old value everywhere else. -/
theorem Mem.read_write (m : Mem) (a : Nat) (v : Byte) (i : Nat) :
    Mem.read (Mem.write m a v) i = if a = i then v else Mem.read m i := by
  unfold Mem.write
  split_ifs with hv h1 h2
  · subst h1; rw [Mem.read_filter_ne, if_pos rfl, hv]
  · rw [Mem.read_filter_ne, if_neg h1]
  · rw [Mem.read_insert, if_pos h2]
  · rw [Mem.read_insert, if_neg h2]

/-- A read after a run of writes. -/
theorem Mem.read_writeList (bs : List Byte) (m : Mem) (a i : Nat) :
    Mem.read (Mem.writeList m a bs) i
      = if a ≤ i ∧ i < a + bs.length then bs.getD (i - a) 0 else Mem.read m i := by
  induction bs generalizing m a with
  | nil => simp [Mem.writeList]
  | cons b bs ih =>
    rw [Mem.writeList, ih, Mem.read_write]
    by_cases h : a = i
    · subst h; simp
    · by_cases h1 : a + 1 ≤ i ∧ i < a + 1 + bs.length
      · obtain ⟨k, rfl⟩ : ∃ k, i = a + 1 + k := ⟨i - (a + 1), by omega⟩
        rw [if_pos h1, if_pos (by simp; omega)]
        rw [show a + 1 + k - a = k + 1 by omega, show a + 1 + k - (a + 1) = k by omega]
        simp
      · rw [if_neg h1, if_neg h, if_neg (by simp; omega)]

theorem Mem.writeList_append (m : Mem) (a : Nat) (p q : List Byte) :
    Mem.writeList m a (p ++ q) = Mem.writeList (Mem.writeList m a p) (a + p.length) q := by
  induction p generalizing m a with
  | nil => rfl
  | cons b p ih => simp [Mem.writeList, ih, Nat.add_assoc, Nat.add_comm 1]

/-! The canonical form. -/

theorem Mem.wfFrom_cons (lo x : Nat) (b : Byte) (m : Mem) :
    Mem.wfFrom lo ((x, b) :: m) = true
      ↔ lo ≤ x ∧ x < 128 ∧ b ≠ Mem.unlisted ∧ Mem.wfFrom (x + 1) m = true := by
  simp [Mem.wfFrom, and_assoc]

theorem Mem.wfFrom_mono {lo lo' : Nat} (h : lo' ≤ lo) (m : Mem) (hm : Mem.wfFrom lo m = true) :
    Mem.wfFrom lo' m = true := by
  cases m with
  | nil => rfl
  | cons c m =>
    obtain ⟨x, b⟩ := c
    rw [Mem.wfFrom_cons] at hm ⊢
    exact ⟨h.trans hm.1, hm.2⟩

theorem Mem.wfFrom_insert (m : Mem) (lo a : Nat) (v : Byte) (hlo : lo ≤ a) (ha : a < 128)
    (hv : v ≠ Mem.unlisted) (hm : Mem.wfFrom lo m = true) :
    Mem.wfFrom lo (Mem.insert m a v) = true := by
  induction m generalizing lo with
  | nil => rw [Mem.insert, Mem.wfFrom_cons]; exact ⟨hlo, ha, hv, rfl⟩
  | cons c m ih =>
    obtain ⟨x, b⟩ := c
    rw [Mem.wfFrom_cons] at hm
    obtain ⟨h1, h2, h3, h4⟩ := hm
    unfold Mem.insert
    split_ifs with c1 c2
    · rw [Mem.wfFrom_cons, Mem.wfFrom_cons]
      exact ⟨hlo, ha, hv, by omega, h2, h3, h4⟩
    · subst c2
      rw [Mem.wfFrom_cons]
      exact ⟨hlo, ha, hv, h4⟩
    · rw [Mem.wfFrom_cons]
      exact ⟨h1, h2, h3, ih (x + 1) (by omega) h4⟩

theorem Mem.wfFrom_filter (m : Mem) (lo : Nat) (p : Host.Cell → Bool) (hm : Mem.wfFrom lo m = true) :
    Mem.wfFrom lo (m.filter p) = true := by
  induction m generalizing lo with
  | nil => rfl
  | cons c m ih =>
    obtain ⟨x, b⟩ := c
    rw [Mem.wfFrom_cons] at hm
    obtain ⟨h1, h2, h3, h4⟩ := hm
    rw [List.filter_cons]
    split_ifs
    · rw [Mem.wfFrom_cons]; exact ⟨h1, h2, h3, ih _ h4⟩
    · exact ih lo (Mem.wfFrom_mono (by omega) m h4)

/-- A write inside `BUF` keeps the canonical form. -/
theorem Mem.wf_write (m : Mem) (a : Nat) (v : Byte) (ha : a < 128) (hm : Mem.wf m = true) :
    Mem.wf (Mem.write m a v) = true := by
  unfold Mem.write
  split_ifs with hv
  · exact Mem.wfFrom_filter m 0 _ hm
  · exact Mem.wfFrom_insert m 0 a v (Nat.zero_le a) ha hv hm

/-- A run of writes inside `BUF` keeps the canonical form. -/
theorem Mem.wf_writeList (bs : List Byte) (m : Mem) (a : Nat) (ha : a + bs.length ≤ 128)
    (hm : Mem.wf m = true) : Mem.wf (Mem.writeList m a bs) = true := by
  induction bs generalizing m a with
  | nil => exact hm
  | cons b bs ih =>
    simp only [List.length_cons] at ha
    exact ih _ _ (by omega) (Mem.wf_write m a b (by omega) hm)

theorem Mem.wf_nil : Mem.wf [] = true := rfl

theorem Mem.read_of_wfFrom_lt (m : Mem) (lo i : Nat) (hi : i < lo) (hm : Mem.wfFrom lo m = true) :
    Mem.read m i = Mem.unlisted := by
  induction m generalizing lo with
  | nil => rfl
  | cons c m ih =>
    obtain ⟨x, b⟩ := c
    rw [Mem.wfFrom_cons] at hm
    rw [Mem.read_cons, if_neg (by omega)]
    exact ih (x + 1) (by omega) hm.2.2.2

theorem Mem.eq_of_read_eq_from (m n : Mem) (lo lo' : Nat) (hm : Mem.wfFrom lo m = true)
    (hn : Mem.wfFrom lo' n = true) (h : ∀ i, Mem.read m i = Mem.read n i) : m = n := by
  induction m generalizing n lo lo' with
  | nil =>
    cases n with
    | nil => rfl
    | cons c n =>
      obtain ⟨x, b⟩ := c
      have h1 := h x
      rw [Mem.wfFrom_cons] at hn
      rw [Mem.read_nil, Mem.read_cons, if_pos rfl] at h1
      exact absurd h1.symm hn.2.2.1
  | cons c m ih =>
    obtain ⟨x, b⟩ := c
    have hm' := (Mem.wfFrom_cons lo x b m).1 hm
    cases n with
    | nil =>
      have h1 := h x
      rw [Mem.read_nil, Mem.read_cons, if_pos rfl] at h1
      exact absurd h1 hm'.2.2.1
    | cons c' n =>
      obtain ⟨y, d⟩ := c'
      have hn' := (Mem.wfFrom_cons lo' y d n).1 hn
      have hxy : x = y := by
        rcases Nat.lt_trichotomy x y with hlt | heq | hgt
        · have h1 := h x
          rw [Mem.read_cons, if_pos rfl, Mem.read_cons, if_neg (by omega),
            Mem.read_of_wfFrom_lt n (y + 1) x (by omega) hn'.2.2.2] at h1
          exact absurd h1 hm'.2.2.1
        · exact heq
        · have h1 := h y
          rw [Mem.read_cons, if_neg (by omega), Mem.read_cons, if_pos rfl,
            Mem.read_of_wfFrom_lt m (x + 1) y (by omega) hm'.2.2.2] at h1
          exact absurd h1.symm hn'.2.2.1
      subst hxy
      have hbd : b = d := by
        have h1 := h x
        rwa [Mem.read_cons, if_pos rfl, Mem.read_cons, if_pos rfl] at h1
      subst hbd
      have hrest : m = n := by
        apply ih n (x + 1) (x + 1) hm'.2.2.2 hn'.2.2.2
        intro i
        by_cases hi : x = i
        · subst hi
          rw [Mem.read_of_wfFrom_lt m (x + 1) x (by omega) hm'.2.2.2,
            Mem.read_of_wfFrom_lt n (x + 1) x (by omega) hn'.2.2.2]
        · have h1 := h i
          rwa [Mem.read_cons, if_neg hi, Mem.read_cons, if_neg hi] at h1
      rw [hrest]

/-- Two canonical memories with the same contents are the same list. -/
theorem Mem.eq_of_read_eq {m n : Mem} (hm : Mem.wf m = true) (hn : Mem.wf n = true)
    (h : ∀ i, Mem.read m i = Mem.read n i) : m = n :=
  Mem.eq_of_read_eq_from m n 0 0 hm hn h

end Sys2Proof.Machine
end

