-- ==== Sys2Proof/Laws/State.lean ====
section
/-!
SUPPORT. One lemma per field per named update of the state, so that no proof unfolds a record update.
-/

namespace Sys2Proof.Machine

variable (s : State)

/-! `memWrite1` -/

@[simp] theorem State.memWrite1_h (a : Nat) (b : Byte) : (s.memWrite1 a b).h = s.h := rfl
@[simp] theorem State.memWrite1_buf (a : Nat) (b : Byte) : (s.memWrite1 a b).buf = Mem.write s.buf a b := rfl
@[simp] theorem State.memWrite1_totalBytes (a : Nat) (b : Byte) : (s.memWrite1 a b).totalBytes = s.totalBytes := rfl
@[simp] theorem State.memWrite1_highBitCount (a : Nat) (b : Byte) : (s.memWrite1 a b).highBitCount = s.highBitCount := rfl
@[simp] theorem State.memWrite1_phase (a : Nat) (b : Byte) : (s.memWrite1 a b).phase = s.phase := rfl
@[simp] theorem State.memWrite1_owed (a : Nat) (b : Byte) : (s.memWrite1 a b).owed = s.owed := rfl
@[simp] theorem State.memWrite1_dout (a : Nat) (b : Byte) : (s.memWrite1 a b).dout = s.dout := rfl
@[simp] theorem State.memWrite1_pending (a : Nat) (b : Byte) : (s.memWrite1 a b).pending = s.pending := rfl
@[simp] theorem State.memWrite1_digests (a : Nat) (b : Byte) : (s.memWrite1 a b).digests = s.digests := rfl

/-! `memWrite8` -/

@[simp] theorem State.memWrite8_h (a : Nat) (v : Word) : (s.memWrite8 a v).h = s.h := rfl
@[simp] theorem State.memWrite8_buf (a : Nat) (v : Word) : (s.memWrite8 a v).buf = Mem.writeList s.buf a (bytesBE64 v) := rfl
@[simp] theorem State.memWrite8_totalBytes (a : Nat) (v : Word) : (s.memWrite8 a v).totalBytes = s.totalBytes := rfl
@[simp] theorem State.memWrite8_highBitCount (a : Nat) (v : Word) : (s.memWrite8 a v).highBitCount = s.highBitCount := rfl
@[simp] theorem State.memWrite8_phase (a : Nat) (v : Word) : (s.memWrite8 a v).phase = s.phase := rfl
@[simp] theorem State.memWrite8_owed (a : Nat) (v : Word) : (s.memWrite8 a v).owed = s.owed := rfl
@[simp] theorem State.memWrite8_dout (a : Nat) (v : Word) : (s.memWrite8 a v).dout = s.dout := rfl
@[simp] theorem State.memWrite8_pending (a : Nat) (v : Word) : (s.memWrite8 a v).pending = s.pending := rfl
@[simp] theorem State.memWrite8_digests (a : Nat) (v : Word) : (s.memWrite8 a v).digests = s.digests := rfl

/-! `zeroFrom` -/

@[simp] theorem State.zeroFrom_h (lo hi : Nat) : (s.zeroFrom lo hi).h = s.h := rfl
@[simp] theorem State.zeroFrom_buf (lo hi : Nat) : (s.zeroFrom lo hi).buf = Mem.writeList s.buf lo (List.replicate (hi - lo) 0x00) := rfl
@[simp] theorem State.zeroFrom_totalBytes (lo hi : Nat) : (s.zeroFrom lo hi).totalBytes = s.totalBytes := rfl
@[simp] theorem State.zeroFrom_highBitCount (lo hi : Nat) : (s.zeroFrom lo hi).highBitCount = s.highBitCount := rfl
@[simp] theorem State.zeroFrom_phase (lo hi : Nat) : (s.zeroFrom lo hi).phase = s.phase := rfl
@[simp] theorem State.zeroFrom_owed (lo hi : Nat) : (s.zeroFrom lo hi).owed = s.owed := rfl
@[simp] theorem State.zeroFrom_dout (lo hi : Nat) : (s.zeroFrom lo hi).dout = s.dout := rfl
@[simp] theorem State.zeroFrom_pending (lo hi : Nat) : (s.zeroFrom lo hi).pending = s.pending := rfl
@[simp] theorem State.zeroFrom_digests (lo hi : Nat) : (s.zeroFrom lo hi).digests = s.digests := rfl

/-! `compressBuf` -/

@[simp] theorem State.compressBuf_h : (s.compressBuf).h = compress s.h s.block := rfl
@[simp] theorem State.compressBuf_buf : (s.compressBuf).buf = s.buf := rfl
@[simp] theorem State.compressBuf_totalBytes : (s.compressBuf).totalBytes = s.totalBytes := rfl
@[simp] theorem State.compressBuf_highBitCount : (s.compressBuf).highBitCount = s.highBitCount := rfl
@[simp] theorem State.compressBuf_phase : (s.compressBuf).phase = s.phase := rfl
@[simp] theorem State.compressBuf_owed : (s.compressBuf).owed = s.owed := rfl
@[simp] theorem State.compressBuf_dout : (s.compressBuf).dout = s.dout := rfl
@[simp] theorem State.compressBuf_pending : (s.compressBuf).pending = s.pending := rfl
@[simp] theorem State.compressBuf_digests : (s.compressBuf).digests = s.digests := rfl

/-! `advanceCounters` -/

@[simp] theorem State.advanceCounters_h (n : Nat) : (s.advanceCounters n).h = s.h := rfl
@[simp] theorem State.advanceCounters_buf (n : Nat) : (s.advanceCounters n).buf = s.buf := rfl
@[simp] theorem State.advanceCounters_totalBytes (n : Nat) : (s.advanceCounters n).totalBytes = totalAfter s.totalBytes n := rfl
@[simp] theorem State.advanceCounters_highBitCount (n : Nat) : (s.advanceCounters n).highBitCount = highAfter s.totalBytes s.highBitCount n := rfl
@[simp] theorem State.advanceCounters_phase (n : Nat) : (s.advanceCounters n).phase = s.phase := rfl
@[simp] theorem State.advanceCounters_owed (n : Nat) : (s.advanceCounters n).owed = s.owed := rfl
@[simp] theorem State.advanceCounters_dout (n : Nat) : (s.advanceCounters n).dout = s.dout := rfl
@[simp] theorem State.advanceCounters_pending (n : Nat) : (s.advanceCounters n).pending = s.pending := rfl
@[simp] theorem State.advanceCounters_digests (n : Nat) : (s.advanceCounters n).digests = s.digests := rfl

/-! `emit` -/

@[simp] theorem State.emit_h (d : Digest) : (s.emit d).h = s.h := rfl
@[simp] theorem State.emit_buf (d : Digest) : (s.emit d).buf = s.buf := rfl
@[simp] theorem State.emit_totalBytes (d : Digest) : (s.emit d).totalBytes = s.totalBytes := rfl
@[simp] theorem State.emit_highBitCount (d : Digest) : (s.emit d).highBitCount = s.highBitCount := rfl
@[simp] theorem State.emit_phase (d : Digest) : (s.emit d).phase = s.phase := rfl
@[simp] theorem State.emit_owed (d : Digest) : (s.emit d).owed = s.owed := rfl
@[simp] theorem State.emit_dout (d : Digest) : (s.emit d).dout = some d := rfl
@[simp] theorem State.emit_pending (d : Digest) : (s.emit d).pending = s.pending := rfl
@[simp] theorem State.emit_digests (d : Digest) : (s.emit d).digests = s.digests := rfl

/-! `wipe` -/

@[simp] theorem State.wipe_h : (s.wipe).h = #v[0, 0, 0, 0, 0, 0, 0, 0] := rfl
@[simp] theorem State.wipe_buf : (s.wipe).buf = [] := rfl
@[simp] theorem State.wipe_totalBytes : (s.wipe).totalBytes = 0 := rfl
@[simp] theorem State.wipe_highBitCount : (s.wipe).highBitCount = 0 := rfl
@[simp] theorem State.wipe_phase : (s.wipe).phase = .idle := rfl
@[simp] theorem State.wipe_owed : (s.wipe).owed = s.owed := rfl
@[simp] theorem State.wipe_dout : (s.wipe).dout = s.dout := rfl
@[simp] theorem State.wipe_pending : (s.wipe).pending = s.pending := rfl
@[simp] theorem State.wipe_digests : (s.wipe).digests = s.digests := rfl

/-! `resetEngine` -/

@[simp] theorem State.resetEngine_h : (s.resetEngine).h = #v[0, 0, 0, 0, 0, 0, 0, 0] := rfl
@[simp] theorem State.resetEngine_buf : (s.resetEngine).buf = [] := rfl
@[simp] theorem State.resetEngine_totalBytes : (s.resetEngine).totalBytes = 0 := rfl
@[simp] theorem State.resetEngine_highBitCount : (s.resetEngine).highBitCount = 0 := rfl
@[simp] theorem State.resetEngine_phase : (s.resetEngine).phase = .idle := rfl
@[simp] theorem State.resetEngine_owed : (s.resetEngine).owed = 0 := rfl
@[simp] theorem State.resetEngine_dout : (s.resetEngine).dout = none := rfl
@[simp] theorem State.resetEngine_pending : (s.resetEngine).pending = s.pending := rfl
@[simp] theorem State.resetEngine_digests : (s.resetEngine).digests = s.digests := rfl

/-! `countByte` -/

@[simp] theorem State.countByte_h : s.countByte.h =
    s.h := rfl
@[simp] theorem State.countByte_buf : s.countByte.buf =
    s.buf := rfl
@[simp] theorem State.countByte_totalBytes : s.countByte.totalBytes =
    if s.totalBytes = 0x1FFFFFFFFFFFFFFF then 0 else s.totalBytes + 1 := rfl
@[simp] theorem State.countByte_highBitCount : s.countByte.highBitCount =
    if s.totalBytes = 0x1FFFFFFFFFFFFFFF then s.highBitCount + 1 else s.highBitCount := rfl
@[simp] theorem State.countByte_phase : s.countByte.phase =
    s.phase := rfl
@[simp] theorem State.countByte_owed : s.countByte.owed =
    s.owed := rfl
@[simp] theorem State.countByte_dout : s.countByte.dout =
    s.dout := rfl
@[simp] theorem State.countByte_pending : s.countByte.pending =
    s.pending := rfl
@[simp] theorem State.countByte_digests : s.countByte.digests =
    s.digests := rfl

/-! `compressWhenFilled` -/

@[simp] theorem State.compressWhenFilled_h : s.compressWhenFilled.h =
    if s.fill = 0 then compress s.h s.block else s.h := rfl
@[simp] theorem State.compressWhenFilled_buf : s.compressWhenFilled.buf =
    s.buf := rfl
@[simp] theorem State.compressWhenFilled_totalBytes : s.compressWhenFilled.totalBytes =
    s.totalBytes := rfl
@[simp] theorem State.compressWhenFilled_highBitCount : s.compressWhenFilled.highBitCount =
    s.highBitCount := rfl
@[simp] theorem State.compressWhenFilled_phase : s.compressWhenFilled.phase =
    s.phase := rfl
@[simp] theorem State.compressWhenFilled_owed : s.compressWhenFilled.owed =
    s.owed := rfl
@[simp] theorem State.compressWhenFilled_dout : s.compressWhenFilled.dout =
    s.dout := rfl
@[simp] theorem State.compressWhenFilled_pending : s.compressWhenFilled.pending =
    s.pending := rfl
@[simp] theorem State.compressWhenFilled_digests : s.compressWhenFilled.digests =
    s.digests := rfl

/-! `fill` reads `total_bytes` only. -/

@[simp] theorem State.memWrite1_fill (a : Nat) (b : Byte) : (s.memWrite1 a b).fill = s.fill := rfl
@[simp] theorem State.memWrite8_fill (a : Nat) (v : Word) : (s.memWrite8 a v).fill = s.fill := rfl
@[simp] theorem State.zeroFrom_fill (lo hi : Nat) : (s.zeroFrom lo hi).fill = s.fill := rfl
@[simp] theorem State.compressBuf_fill : s.compressBuf.fill = s.fill := rfl

theorem State.fill_lt : s.fill < 128 := Nat.mod_lt _ (by decide)

/-! The ends of an outcome that goes on. -/

@[simp] theorem onNext_next (f : State → State) : onNext (.next s) f = .next (f s) := rfl

@[simp] theorem onNext_fault (r : Fault) (f : State → State) : onNext (.fault r) f = .fault r := rfl

@[simp] theorem onNext_refused (r : Refusal) (f : State → State) :
    onNext (.refused r) f = .refused r := rfl

end Sys2Proof.Machine
end

