-- ==== Sys2Proof/Laws/Blocks.lean ====
section
/-!
SUPPORT. Byte strings cut into blocks, the bytes of a word, and the buffer as a block.
-/

namespace Sys2Proof.Machine

@[simp] theorem bytesBE64_length (w : Word) : (bytesBE64 w).length = 8 := rfl

@[simp] theorem digestBytes_length (h : StateWords) : (digestBytes h).length = 32 := rfl

/-- Two blocks are equal when their 128 bytes are. -/
theorem block_ofFn_congr {f g : Fin 128 → Byte} (h : ∀ i, f i = g i) :
    (Vector.ofFn f : Block) = Vector.ofFn g := by
  rw [funext h]

theorem blocksOf_length (p : List Byte) : (blocksOf p).length = p.length / 128 := by
  simp [blocksOf]

theorem blocksOf_short {p : List Byte} (h : p.length < 128) : blocksOf p = [] := by
  simp [blocksOf, Nat.div_eq_of_lt h]

theorem blockAt_append_left {p : List Byte} (q : List Byte) {j : Nat} (h : 128 * j + 128 ≤ p.length) :
    blockAt (p ++ q) j = blockAt p j := by
  unfold blockAt
  apply block_ofFn_congr
  intro i
  rw [List.getD_append _ _ _ _ (by omega)]

theorem blockAt_append_right {p : List Byte} (q : List Byte) (hp : p.length = 128) (j : Nat) :
    blockAt (p ++ q) (j + 1) = blockAt q j := by
  unfold blockAt
  apply block_ofFn_congr
  intro i
  rw [List.getD_append_right _ _ _ _ (by omega)]
  congr 1
  omega

/-- A byte string that begins with one whole block. -/
theorem blocksOf_cons {p : List Byte} (q : List Byte) (hp : p.length = 128) :
    blocksOf (p ++ q) = blockAt p 0 :: blocksOf q := by
  unfold blocksOf
  rw [List.length_append, hp, show (128 + q.length) / 128 = q.length / 128 + 1 by omega,
    List.range_succ_eq_map, List.map_cons, List.map_map, blockAt_append_left q (by omega)]
  exact congrArg (List.cons (blockAt p 0))
    (List.map_congr_left fun j _ => blockAt_append_right q hp j)

theorem blocksOf_single {p : List Byte} (hp : p.length = 128) : blocksOf p = [blockAt p 0] := by
  have h := blocksOf_cons [] hp
  rwa [List.append_nil, blocksOf_short (p := []) (by simp)] at h

/-- The whole blocks of a byte string and then those of what is left with more bytes behind it. -/
theorem blocksOf_append (p q : List Byte) :
    blocksOf (p ++ q) = blocksOf p ++ blocksOf (p.drop (128 * (p.length / 128)) ++ q) := by
  induction hn : p.length / 128 generalizing p with
  | zero =>
    rw [blocksOf_short (p := p) (by omega)]
    simp
  | succ n ih =>
    have hp : (p.take 128).length = 128 := by simp; omega
    have e1 : blocksOf p = blockAt (p.take 128) 0 :: blocksOf (p.drop 128) := by
      rw [← blocksOf_cons _ hp, List.take_append_drop]
    have e2 : blocksOf (p ++ q) = blockAt (p.take 128) 0 :: blocksOf (p.drop 128 ++ q) := by
      rw [← blocksOf_cons _ hp, ← List.append_assoc, List.take_append_drop]
    rw [e1, e2, ih (p.drop 128) (by rw [List.length_drop]; omega), List.drop_drop]
    rw [show 128 + 128 * n = 128 * (n + 1) by omega]
    rfl

theorem compressBlocks_append (h : StateWords) (p q : List Block) :
    compressBlocks h (p ++ q) = compressBlocks (compressBlocks h p) q := List.foldl_append

@[simp] theorem compressBlocks_nil (h : StateWords) : compressBlocks h [] = h := rfl

@[simp] theorem compressBlocks_cons (h : StateWords) (b : Block) (bs : List Block) :
    compressBlocks h (b :: bs) = compressBlocks (compress h b) bs := rfl

/-! ## The buffer as a byte string -/

/-- The first `n` bytes of `BUF`. -/
def State.front (s : State) (n : Nat) : List Byte := (List.range n).map s.memRead1

@[simp] theorem State.front_length (s : State) (n : Nat) : (s.front n).length = n := by
  simp [State.front]

@[simp] theorem State.front_zero (s : State) : s.front 0 = [] := rfl

theorem State.front_congr {s t : State} {n : Nat} (h : ∀ i < n, s.memRead1 i = t.memRead1 i) :
    s.front n = t.front n := by
  unfold State.front
  apply List.map_congr_left
  intro i hi
  exact h i (List.mem_range.1 hi)

theorem State.front_succ (s : State) (n : Nat) : s.front (n + 1) = s.front n ++ [s.memRead1 n] := by
  simp [State.front, List.range_succ]

theorem State.front_getD (s : State) {n i : Nat} (hi : i < n) (d : Byte) :
    (s.front n).getD i d = s.memRead1 i := by
  simp [State.front, hi]

theorem State.live_eq_front (s : State) : s.live = s.front s.fill := rfl

theorem State.memRead1_memWrite1 (s : State) (a : Nat) (b : Byte) (i : Nat) :
    (s.memWrite1 a b).memRead1 i = if a = i then b else s.memRead1 i := Mem.read_write _ _ _ _

theorem State.memRead1_congr {s t : State} (h : s.buf = t.buf) (i : Nat) :
    s.memRead1 i = t.memRead1 i := by
  unfold State.memRead1
  rw [h]

@[simp] theorem State.memRead1_compressBuf (s : State) (i : Nat) :
    s.compressBuf.memRead1 i = s.memRead1 i := rfl

@[simp] theorem State.memRead1_advanceCounters (s : State) (n i : Nat) :
    (s.advanceCounters n).memRead1 i = s.memRead1 i := rfl

theorem State.front_memWrite1 (s : State) (n : Nat) (b : Byte) :
    (s.memWrite1 n b).front (n + 1) = s.front n ++ [b] := by
  rw [State.front_succ, State.memRead1_memWrite1, if_pos rfl]
  congr 1
  apply State.front_congr
  intro i hi
  rw [State.memRead1_memWrite1, if_neg (by omega)]

/-- `BUF` as a block is the block of its 128 bytes. -/
theorem State.block_eq_blockAt_front (s : State) : s.block = blockAt (s.front 128) 0 := by
  unfold State.block blockAt
  apply block_ofFn_congr
  intro i
  rw [State.front_getD s (by omega)]
  congr 1
  omega

/-- `BUF` as a block is the `j`-th block of a byte string it agrees with. -/
theorem State.block_eq_blockAt {s : State} {p : List Byte} {j : Nat}
    (h : ∀ i < 128, s.memRead1 i = p.getD (128 * j + i) 0) : s.block = blockAt p j := by
  unfold State.block blockAt
  apply block_ofFn_congr
  intro i
  exact h i.val i.isLt

end Sys2Proof.Machine
end

