-- ==== Sys2Proof/Laws/Finish.lean ====
section
/-!
SUPPORT. What the operations of `FINISH` do to `BUF`, byte by byte, and that they keep its canonical
form; what each command can answer.
-/

namespace Sys2Proof.Machine

theorem State.memRead1_memWrite8 (s : State) (a : Nat) (v : Word) (i : Nat) :
    (s.memWrite8 a v).memRead1 i
      = if a ≤ i ∧ i < a + 8 then (bytesBE64 v).getD (i - a) 0 else s.memRead1 i :=
  Mem.read_writeList _ _ _ _

theorem State.memRead1_zeroFrom (s : State) (lo hi i : Nat) :
    (s.zeroFrom lo hi).memRead1 i = if lo ≤ i ∧ i < hi then 0 else s.memRead1 i := by
  refine (Mem.read_writeList _ _ _ _).trans ?_
  simp only [List.length_replicate]
  by_cases h : lo ≤ i ∧ i < hi
  · rw [if_pos (by omega), if_pos h, List.getD_replicate _ (by omega)]
  · rw [if_neg (by omega), if_neg h]; rfl

theorem State.memWrite1_wf {s : State} (a : Nat) (b : Byte) (ha : a < 128) (hm : Mem.wf s.buf = true) :
    Mem.wf (s.memWrite1 a b).buf = true := Mem.wf_write _ _ _ ha hm

theorem State.memWrite8_wf {s : State} (a : Nat) (v : Word) (ha : a + 8 ≤ 128)
    (hm : Mem.wf s.buf = true) : Mem.wf (s.memWrite8 a v).buf = true :=
  Mem.wf_writeList _ _ _ ha hm

theorem State.zeroFrom_wf {s : State} (lo hi : Nat) (hlo : lo ≤ 128) (hhi : hi ≤ 128)
    (hm : Mem.wf s.buf = true) : Mem.wf (s.zeroFrom lo hi).buf = true :=
  Mem.wf_writeList _ _ _ (by rw [List.length_replicate]; omega) hm

/-- `padTail` keeps the canonical form of the buffer. -/
theorem State.padTail_wf (s : State) (hm : Mem.wf s.buf = true) : Mem.wf s.padTail.buf = true := by
  have hf := s.fill_lt
  have h1 := State.memWrite1_wf s.fill 0x80 hf hm
  unfold State.padTail
  refine State.memWrite8_wf _ _ (by omega) (State.memWrite8_wf _ _ (by omega) ?_)
  split
  · exact State.zeroFrom_wf _ _ (by omega) (by omega) (State.zeroFrom_wf _ _ (by omega) (by omega) h1)
  · exact State.zeroFrom_wf _ _ (by omega) (by omega) h1

/-- `finalize` writes nothing but the state words and the buffer. -/
theorem State.finalize_frame (s : State) :
    s.finalize = { s with h := s.finalize.h, buf := s.finalize.buf } := by
  unfold State.finalize State.padTail
  simp only []
  split <;> rfl

/-- Everything a command can answer, by command and phase. -/
theorem exec_cases (i : Instr) (s : State) :
    (i = .rsvd ∧ exec i s = .fault .cvReservedOp) ∨
    (i = .init ∧
      exec i s = .next { s with h := iv, totalBytes := 0, highBitCount := 0, phase := .active }) ∨
    (∃ p, i = .update p ∧ s.phase = .idle ∧ exec i s = .fault .cvUpdateNotActive) ∨
    (∃ p, i = .update p ∧ s.phase = .active ∧ exec i s = .next (s.absorb p)) ∨
    (i = .finish ∧ s.phase = .idle ∧ exec i s = .fault .cvFinishNotActive) ∨
    (i = .finish ∧ s.phase = .active ∧
      exec i s = .next { s.wipe with dout := some (digestWord s.finalize.h) }) ∨
    (i = .compress ∧ exec i s = .next s.compressBuf) := by
  have hp : s.phase = .idle ∨ s.phase = .active := by cases s.phase <;> simp
  cases i with
  | rsvd => exact .inl ⟨rfl, rfl⟩
  | init => exact .inr (.inl ⟨rfl, rfl⟩)
  | update p =>
    rcases hp with h | h
    · exact .inr (.inr (.inl ⟨p, rfl, h, by simp [exec, execUpdate, whenActive, h, raiseViolation]⟩))
    · exact .inr (.inr (.inr (.inl ⟨p, rfl, h, by simp [exec, execUpdate, whenActive, h]⟩)))
  | finish =>
    rcases hp with h | h
    · exact .inr (.inr (.inr (.inr (.inl
        ⟨rfl, h, by simp [exec, execFinish, whenActive, h, raiseViolation]⟩))))
    · refine .inr (.inr (.inr (.inr (.inr (.inl ⟨rfl, h, ?_⟩)))))
      simp only [exec, execFinish, whenActive, h, if_true]
      rw [State.finalize_frame s]; rfl
  | compress => exact .inr (.inr (.inr (.inr (.inr (.inr ⟨rfl, rfl⟩)))))

end Sys2Proof.Machine
end

