-- ==== Sys2Proof/Laws/Message.lean ====
section
/-!
SUPPORT. What a context that holds a message says of `fill`, and what it depends on; the length of an
event's payload.
-/

/-- A payload of the alphabet is shorter than 2^64 bytes. -/
theorem Sys2Proof.Payload.length_lt (p : Sys2Proof.Payload) : p.val.length < 2 ^ 64 :=
  of_decide_eq_true p.property

namespace Sys2Proof.Machine

@[simp] theorem State.live_length (s : State) : s.live.length = s.fill := by
  rw [State.live_eq_front, State.front_length]

theorem State.fill_of_holdsMessage {s : State} {m : List Byte} (h : s.HoldsMessage m) :
    s.fill = m.length % 128 := by
  have hl := s.live_length
  rw [h.2.1, List.length_drop] at hl
  omega

/-- Holding a message depends on the context only. -/
theorem State.holdsMessage_congr {s t : State} {m : List Byte} (hh : t.h = s.h) (hb : t.buf = s.buf)
    (ht : t.totalBytes = s.totalBytes) (hc : t.highBitCount = s.highBitCount) (h : s.HoldsMessage m) :
    t.HoldsMessage m := by
  obtain ⟨h1, h2, h3⟩ := h
  refine ⟨by rw [hh, h1], ?_, ?_⟩
  · rw [← h2]; unfold State.live State.fill State.memRead1; rw [ht, hb]
  · rw [← h3]; unfold State.byteCount; rw [ht, hc]

end Sys2Proof.Machine
end

