-- ==== Sys2Proof/Laws/Sequencer.lean ====
section
/-!
SUPPORT. What the sequencer's operations can do, and the inversion of one step into its few forms.
-/

namespace Sys2Proof.Machine

theorem commandWord_getLsbD (op : BitVec 2) (len : Word) (i : Nat) :
    (commandWord op len).getLsbD i = if i < 64 then len.getLsbD i else op.getLsbD (i - 64) := by
  unfold commandWord
  rw [BitVec.getLsbD_append]

theorem State.stage_eq_ready (s : State) : s.stage = .ready ↔ s.dout = none ∧ s.owed = 0 := by
  unfold State.stage; split_ifs <;> simp_all

theorem State.stage_eq_absorbing (s : State) : s.stage = .absorbing ↔ s.dout = none ∧ s.owed ≠ 0 := by
  unfold State.stage; split_ifs <;> simp_all

theorem State.stage_eq_emitting (s : State) : s.stage = .emitting ↔ s.dout ≠ none := by
  unfold State.stage; split_ifs <;> simp_all

/-- The offer taken satisfies the test. -/
theorem firstOffer_sat {p : HostEvent → Bool} {es r : List HostEvent} {e : HostEvent}
    (h : firstOffer p es = some (e, r)) : p e = true := by
  induction es generalizing r with
  | nil => simp [firstOffer] at h
  | cons a es ih =>
    unfold firstOffer at h
    split_ifs at h with hp
    · simp at h; rw [← h.1]; exact hp
    · cases hf : firstOffer p es with
      | none => simp [hf] at h
      | some x => simp [hf] at h; apply ih (r := x.2); rw [hf, ← h.1]

@[simp] theorem dropBeats_zero (es : List HostEvent) : dropBeats 0 es = es := by
  induction es with
  | nil => rfl
  | cons a es ih => cases a <;> simp [dropBeats, ih]

theorem offeredBeats_map (m : List Byte) (es : List HostEvent) :
    offeredBeats (m.map HostEvent.beat ++ es) = m ++ offeredBeats es := by
  induction m with
  | nil => rfl
  | cons a m ih => simp [offeredBeats, ih]

theorem dropBeats_map (m : List Byte) (es : List HostEvent) :
    dropBeats m.length (m.map HostEvent.beat ++ es) = es := by
  induction m with
  | nil => simp
  | cons a m ih => simp [dropBeats, ih]

/-- A beat does not look at the host's offers. -/
theorem State.beat_pending (s : State) (b : Byte) (es : List HostEvent) :
    ({ s with pending := es } : State).beat b = { s.beat b with pending := es } := rfl

theorem State.transferDigest_some {s : State} {d : Digest} (h : s.dout = some d) :
    s.transferDigest = { s with dout := none, digests := s.digests ++ [d] } := by
  simp [State.transferDigest, h]

theorem State.handOver_none {s : State} (h : s.dout = none) : s.handOver = s := by
  unfold State.handOver; rw [h]

/-- A hand-over does nothing, or transfers the digest and uses up one readiness of the host. -/
theorem State.handOver_cases (s : State) :
    s.handOver = s ∨
    ∃ d es, s.dout = some d ∧ takeOffer s.pending = some es ∧
      s.handOver = { s with dout := none, pending := es, digests := s.digests ++ [d] } := by
  cases hd : s.dout with
  | none => exact .inl (State.handOver_none hd)
  | some d =>
    cases ho : takeOffer s.pending with
    | none => left; unfold State.handOver; rw [hd, ho]
    | some es =>
      right
      refine ⟨d, es, rfl, rfl, ?_⟩
      unfold State.handOver
      rw [hd, ho]
      simp [State.transferDigest]

/-- The forms of one step from `s`: what it leaves, and what it says of `s`. -/
inductive StepForm (s : State) : State → Prop
  | wait : StepForm s s
  | reset (es : List HostEvent) : StepForm s { State.reset with pending := es, digests := s.digests }
  | beat (b : Byte) (es : List HostEvent) : s.stage = .absorbing →
      StepForm s { ({ s with pending := es } : State).beat b with owed := s.owed - 1 }
  | take (d : Digest) (es : List HostEvent) : s.dout = some d →
      StepForm s { s with dout := none, pending := es, digests := s.digests ++ [d] }
  | run (i : Instr) (owed : Word) (es : List HostEvent) (t : State) : s.stage = .ready →
      (owed ≠ 0 → ∃ p, i = .update p) → i ≠ .compress →
      exec i { s with owed := owed, pending := es } = .next t → StepForm s t.handOver

/-- A step that completes has one of these forms. -/
theorem step_form {s t : State} (h : step s = .next t) : StepForm s t := by
  unfold step State.nextMove at h
  cases hf : firstOffer s.accepts s.pending with
  | none => rw [hf] at h; cases h; exact .wait
  | some x =>
    obtain ⟨e, es⟩ := x
    have hs := firstOffer_sat hf
    rw [hf] at h
    cases e with
    | reset => cases h; exact .reset es
    | beat b =>
      cases h
      simp only [State.accepts, State.dinReady, decide_eq_true_eq] at hs
      exact .beat b es hs
    | take =>
      simp only [State.accepts, State.doutValid, decide_eq_true_eq, State.stage_eq_emitting] at hs
      cases hd : s.dout with
      | none => exact absurd hd hs
      | some d =>
        simp [State.transferDigest, hd] at h
        rw [← h]; exact .take d es hd
    | command w =>
      simp only [State.accepts, State.cmdReady, decide_eq_true_eq] at hs
      simp only [] at h
      cases he : exec (fetchInstr w es) (s.fetchState w es) with
      | fault r => rw [he] at h; cases h
      | refused r => rw [he] at h; cases h
      | next u =>
        rw [he] at h; cases h
        refine .run (fetchInstr w es) _ _ u hs ?_ ?_ he <;> unfold fetchInstr decode <;>
          split_ifs <;> simp

/-- One step of a run. -/
theorem run_succ_of_next {M : Host.Core} {s t : M.State} {k : Nat} (h : M.step s = .next t) :
    M.run (k + 1) s = M.run k t := by
  simp only [Host.Core.run, h]

end Sys2Proof.Machine
end

