-- ==== Sys2Proof/Laws/PerInstr.lean ====
section
/-!
SUPPORT. The family `OpcodeBits`, one lemma per command: its encoding carries the match value of its
row of spec/opcode_table.json under that row's mask, and a command has an encoding exactly when a host
can issue it (spec/30_encoding.md R75).
-/

namespace Sys2Proof.Laws.OpcodeBits

/-- The mask of the table's rows. -/
def mask : Command := 0x30000000000000000

/-- The match value of a command's row; the internal `COMPRESS` has none. -/
def matchBits : Instr → Option Command
  | .rsvd => some 0x00000000000000000
  | .init => some 0x10000000000000000
  | .update _ => some 0x20000000000000000
  | .finish => some 0x30000000000000000
  | .compress => none

def Statement (i : Instr) : Prop :=
  (encode i).map (fun x => x.1 &&& mask) = matchBits i ∧ (encode i).isSome = i.issuable

theorem masked (op : BitVec 2) (len : Word) : commandWord op len &&& mask = commandWord op 0 := by
  have hm : mask = commandWord 0b11#2 0 := by decide
  rw [hm]
  apply BitVec.eq_of_getLsbD_eq
  intro i hi
  rw [BitVec.getLsbD_and]
  simp only [Machine.commandWord_getLsbD]
  split
  · simp
  · have h : i - 64 = 0 ∨ i - 64 = 1 := by omega
    rcases h with h | h <;> rw [h] <;> simp

theorem rsvd : Statement .rsvd := by unfold Statement; decide

theorem init : Statement .init := by unfold Statement; decide

theorem update (payload : List Byte) : Statement (.update payload) := by
  refine ⟨?_, rfl⟩
  show some (commandWord _ _ &&& mask) = some _
  rw [masked]; decide

theorem finish : Statement .finish := by unfold Statement; decide

theorem compress : Statement .compress := by unfold Statement; decide

end Sys2Proof.Laws.OpcodeBits
end

