-- ==== Sys2Proof/Laws/Update.lean ====
section
/-!
SUPPORT. What absorbing bytes does to each part of the state, and how absorptions join.
-/

namespace Sys2Proof.Machine

/-! ## `putBytes` -/

theorem State.putBytes_cons (b : Byte) (bs : List Byte) (fill : Nat) (s : State) :
    State.putBytes (b :: bs) fill s
      = if fill + 1 = 128 then State.putBytes bs 0 (s.memWrite1 fill b).compressBuf
        else State.putBytes bs (fill + 1) (s.memWrite1 fill b) := rfl

/-- Absorbing bytes writes `H` and `BUF` only. -/
theorem State.putBytes_eq (bs : List Byte) (fill : Nat) (s : State) :
    State.putBytes bs fill s
      = { s with h := (State.putBytes bs fill s).h, buf := (State.putBytes bs fill s).buf } := by
  induction bs generalizing fill s with
  | nil => rfl
  | cons b bs ih =>
    rw [State.putBytes_cons]
    split_ifs
    · rw [ih]; rfl
    · rw [ih]; rfl

/-- Absorbing bytes reads `H` and `BUF` only. -/
theorem State.putBytes_congr (bs : List Byte) (fill : Nat) (s t : State) (hh : s.h = t.h)
    (hb : s.buf = t.buf) :
    (State.putBytes bs fill s).h = (State.putBytes bs fill t).h ∧
      (State.putBytes bs fill s).buf = (State.putBytes bs fill t).buf := by
  induction bs generalizing fill s t with
  | nil => exact ⟨hh, hb⟩
  | cons b bs ih =>
    rw [State.putBytes_cons, State.putBytes_cons]
    have hw : (s.memWrite1 fill b).buf = (t.memWrite1 fill b).buf := by simp [hb]
    have hblk : (s.memWrite1 fill b).block = (t.memWrite1 fill b).block :=
      block_ofFn_congr fun i => State.memRead1_congr hw i.val
    split_ifs
    · exact ih 0 _ _ (by simp [hblk, hh]) (by simp [hb])
    · exact ih (fill + 1) _ _ (by simp [hh]) hw

theorem State.putBytes_append (p q : List Byte) (fill : Nat) (s : State) (hf : fill < 128) :
    State.putBytes (p ++ q) fill s
      = State.putBytes q ((fill + p.length) % 128) (State.putBytes p fill s) := by
  induction p generalizing fill s with
  | nil => simp [State.putBytes, Nat.mod_eq_of_lt hf]
  | cons b p ih =>
    rw [List.cons_append, State.putBytes_cons, State.putBytes_cons]
    split_ifs with h
    · rw [ih 0 _ (by omega)]
      congr 1
      simp only [List.length_cons]
      omega
    · rw [ih (fill + 1) _ (by omega)]
      congr 1
      simp only [List.length_cons]
      omega

/-- The blocks compressed while absorbing are those of the bytes before `fill` with the new ones. -/
theorem State.putBytes_h (bs : List Byte) (fill : Nat) (s : State) (hf : fill < 128) :
    (State.putBytes bs fill s).h = compressBlocks s.h (blocksOf (s.front fill ++ bs)) := by
  induction bs generalizing fill s with
  | nil => rw [blocksOf_short (by simp; omega)]; rfl
  | cons b bs ih =>
    rw [State.putBytes_cons, ← List.singleton_append, ← List.append_assoc, ← State.front_memWrite1]
    split_ifs with h
    · rw [ih 0 _ (by omega), State.front_zero, List.nil_append, h, blocksOf_cons _ (by simp),
        compressBlocks_cons, ← State.block_eq_blockAt_front]
      rfl
    · rw [ih (fill + 1) _ (by omega)]
      rfl

/-- The bytes before the new `fill` are what is left of the old ones and the new ones. -/
theorem State.putBytes_front (bs : List Byte) (fill : Nat) (s : State) (hf : fill < 128) :
    (State.putBytes bs fill s).front ((fill + bs.length) % 128)
      = (s.front fill ++ bs).drop (128 * ((fill + bs.length) / 128)) := by
  induction bs generalizing fill s with
  | nil => simp [State.putBytes, Nat.mod_eq_of_lt hf, Nat.div_eq_of_lt hf]
  | cons b bs ih =>
    rw [State.putBytes_cons, ← List.singleton_append, ← List.append_assoc, ← State.front_memWrite1]
    split_ifs with h
    · have e := ih 0 (s.memWrite1 fill b).compressBuf (by omega)
      rw [State.front_zero, List.nil_append] at e
      rw [show (fill + ([b] ++ bs).length) % 128 = (0 + bs.length) % 128 by simp; omega, e,
        show (fill + ([b] ++ bs).length) / 128 = bs.length / 128 + 1 by simp; omega,
        show 128 * (bs.length / 128 + 1) = 128 + 128 * (bs.length / 128) by omega,
        List.drop_append, h]
      simp
    · have e := ih (fill + 1) (s.memWrite1 fill b) (by omega)
      rw [show fill + ([b] ++ bs).length = fill + 1 + bs.length by simp; omega]
      exact e

/-- Absorbing writes only the positions of its bytes. -/
theorem State.putBytes_read_other (bs : List Byte) (fill : Nat) (s : State) (hf : fill < 128) (a : Nat)
    (ha : ∀ j < bs.length, (fill + j) % 128 ≠ a) :
    (State.putBytes bs fill s).memRead1 a = s.memRead1 a := by
  induction bs generalizing fill s with
  | nil => rfl
  | cons b bs ih =>
    have h0 : fill ≠ a := by have := ha 0 (by simp); rwa [Nat.add_zero, Nat.mod_eq_of_lt hf] at this
    rw [State.putBytes_cons]
    split_ifs with h
    · rw [ih 0 _ (by omega), State.memRead1_compressBuf, State.memRead1_memWrite1, if_neg h0]
      intro j hj
      have := ha (j + 1) (by simpa using hj)
      rwa [show (fill + (j + 1)) % 128 = (0 + j) % 128 by omega] at this
    · rw [ih (fill + 1) _ (by omega), State.memRead1_memWrite1, if_neg h0]
      intro j hj
      have := ha (j + 1) (by simpa using hj)
      rwa [show fill + (j + 1) = fill + 1 + j by omega] at this

/-- The canonical form of the buffer survives an absorption. -/
theorem State.putBytes_wf (bs : List Byte) (fill : Nat) (s : State) (hf : fill < 128)
    (hm : Mem.wf s.buf = true) : Mem.wf (State.putBytes bs fill s).buf = true := by
  induction bs generalizing fill s with
  | nil => exact hm
  | cons b bs ih =>
    rw [State.putBytes_cons]
    split_ifs with h
    · exact ih 0 _ (by omega) (Mem.wf_write _ _ _ hf hm)
    · exact ih (fill + 1) _ (by omega) (Mem.wf_write _ _ _ hf hm)

/-! ## The counters -/

theorem totalAfter_toNat (total : Word) (n : Nat) :
    (totalAfter total n).toNat = (total.toNat + n) % 2 ^ 61 := by
  unfold totalAfter
  rw [BitVec.toNat_ofNat]
  omega

theorem highAfter_toNat (total high : Word) (n : Nat) :
    (highAfter total high n).toNat = (high.toNat + (total.toNat + n) / 2 ^ 61) % 2 ^ 64 := by
  unfold highAfter
  rw [BitVec.toNat_add, BitVec.toNat_ofNat]
  omega

/-- With (I-a), no bytes leave `total_bytes` as it is. -/
theorem totalAfter_zero {total : Word} (h : total.toNat < 2 ^ 61) : totalAfter total 0 = total := by
  apply BitVec.eq_of_toNat_eq
  rw [totalAfter_toNat]
  omega

theorem highAfter_zero {total : Word} (high : Word) (h : total.toNat < 2 ^ 61) :
    highAfter total high 0 = high := by
  apply BitVec.eq_of_toNat_eq
  rw [highAfter_toNat]
  have := high.isLt
  omega

/-- Two advances of the counters are one. -/
theorem totalAfter_totalAfter (total : Word) (m n : Nat) :
    totalAfter (totalAfter total m) n = totalAfter total (m + n) := by
  apply BitVec.eq_of_toNat_eq
  simp only [totalAfter_toNat]
  omega

theorem highAfter_highAfter (total high : Word) (m n : Nat) :
    highAfter (totalAfter total m) (highAfter total high m) n = highAfter total high (m + n) := by
  apply BitVec.eq_of_toNat_eq
  simp only [highAfter_toNat, totalAfter_toNat]
  omega

theorem State.advanceCounters_fill (s : State) (n : Nat) :
    (s.advanceCounters n).fill = (s.fill + n) % 128 := by
  unfold State.fill
  rw [State.advanceCounters_totalBytes, totalAfter_toNat]
  omega

/-! ## `absorb` -/

/-- What absorbing a payload does: the counters advance, and `H` and `BUF` are those of `putBytes`. -/
theorem State.absorb_eq (s : State) (p : List Byte) :
    s.absorb p
      = { s with
          h := (State.putBytes p s.fill s).h
          buf := (State.putBytes p s.fill s).buf
          totalBytes := totalAfter s.totalBytes p.length
          highBitCount := highAfter s.totalBytes s.highBitCount p.length } := by
  have hc := State.putBytes_congr p s.fill (s.advanceCounters p.length) s rfl rfl
  unfold State.absorb
  rw [State.putBytes_eq, hc.1, hc.2]
  rfl

theorem State.absorb_fill (s : State) (p : List Byte) :
    (s.absorb p).fill = (s.fill + p.length) % 128 := by
  rw [State.absorb_eq]
  exact State.advanceCounters_fill s p.length

@[simp] theorem State.absorb_phase (s : State) (p : List Byte) : (s.absorb p).phase = s.phase := by
  rw [State.absorb_eq]

@[simp] theorem State.absorb_owed (s : State) (p : List Byte) : (s.absorb p).owed = s.owed := by
  rw [State.absorb_eq]

@[simp] theorem State.absorb_dout (s : State) (p : List Byte) : (s.absorb p).dout = s.dout := by
  rw [State.absorb_eq]

@[simp] theorem State.absorb_pending (s : State) (p : List Byte) :
    (s.absorb p).pending = s.pending := by
  rw [State.absorb_eq]

@[simp] theorem State.absorb_digests (s : State) (p : List Byte) :
    (s.absorb p).digests = s.digests := by
  rw [State.absorb_eq]

theorem State.absorb_totalBytes (s : State) (p : List Byte) :
    (s.absorb p).totalBytes = totalAfter s.totalBytes p.length := by
  rw [State.absorb_eq]

theorem State.absorb_highBitCount (s : State) (p : List Byte) :
    (s.absorb p).highBitCount = highAfter s.totalBytes s.highBitCount p.length := by
  rw [State.absorb_eq]

theorem State.absorb_wf (s : State) (p : List Byte) (hm : Mem.wf s.buf = true) :
    Mem.wf (s.absorb p).buf = true := by
  rw [State.absorb_eq]
  exact State.putBytes_wf p s.fill s s.fill_lt hm

/-- Absorbing two byte strings one after the other is absorbing the two joined. -/
theorem State.absorb_absorb (s : State) (p q : List Byte) :
    (s.absorb p).absorb q = s.absorb (p ++ q) := by
  have hf : (s.absorb p).fill = (s.fill + p.length) % 128 := State.absorb_fill s p
  have hc := State.putBytes_congr q ((s.fill + p.length) % 128) (s.absorb p)
    (State.putBytes p s.fill s) (by rw [State.absorb_eq]) (by rw [State.absorb_eq])
  rw [State.absorb_eq (s.absorb p) q, State.absorb_eq s (p ++ q), hf, hc.1, hc.2,
    State.putBytes_append p q s.fill s s.fill_lt, State.absorb_totalBytes, State.absorb_highBitCount,
    totalAfter_totalAfter, highAfter_highAfter, List.length_append]
  rw [State.absorb_eq s p]

/-! ## `exec (.update …)` -/

theorem exec_update_active {s : State} (p : List Byte) (h : s.phase = .active) :
    exec (.update p) s = .next (s.absorb p) := by
  simp [exec, execUpdate, whenActive, h]

end Sys2Proof.Machine
end

