-- ==== Sys2Proof/Tests/Slice0.lean ====
section
/-!
SUPPORT. The model's own tests. Expected values are those of spec/95_test_vectors.md (its ids V-…,
P…), of the rule named, or worked out by hand from it. After them a witness for every statement that
has hypotheses.
-/

namespace Sys2Proof.Tests

open Sys2Proof.Machine

/-- A field of the next state, if there is one. -/
def nextField {α : Type} (f : State → α) : Host.Outcome State Fault Refusal → Option α
  | .next t => some (f t)
  | .fault _ => none
  | .refused _ => none

/-- The fault of an outcome, if it is one. -/
def faultOf : Host.Outcome State Fault Refusal → Option Fault
  | .next _ => none
  | .fault r => some r
  | .refused _ => none

/-- The state after `INIT` from reset (V-I1). -/
def afterInit : State := { State.reset with h := iv, phase := .active }

/-- A block of equal bytes. -/
def blockOfByte (b : Byte) : Block := Vector.ofFn fun _ => b

/-- The cells of bytes stored from address 0 on. -/
def cells (bs : List Byte) : Mem := Mem.writeList [] 0 bs

/-- ACTIVE with `total_bytes` = 2^61 − 1, `high_bit_count` all ones and 127 bytes in the buffer: the
launch state of the counters' upper edge. -/
def atTheEdge : State :=
  { afterInit with
    totalBytes := 0x1FFFFFFFFFFFFFFF
    highBitCount := 0xFFFFFFFFFFFFFFFF
    buf := cells (List.replicate 127 0x55) }

/-- An `UPDATE` in flight that owes 2^64 − 1 bytes. -/
def owing : State := { afterInit with owed := 0xFFFFFFFFFFFFFFFF }

/-- A `FINISH` whose digest is not yet taken. -/
def holding : State := { State.reset with dout := some 1 }

/-- ACTIVE with the message "a" absorbed. -/
def holdingA : State := { afterInit with totalBytes := 1, buf := [(0, 0x61)] }

/-! ### Well-formedness -/

/-- The one check that can fail: a payload of 2^64 bytes has no `len` (R131). -/
theorem test_wf_refuses_a_payload_of_2_64_bytes :
    (Instr.update (List.replicate (2 ^ 64) 0)).wf = false := by
  simp only [Instr.wf, List.length_replicate]; decide

theorem test_wf_accepts : Instr.init.wf = true ∧ (Instr.update [0x61]).wf = true := by decide

/-- `COMPRESS` cannot be issued (R75). -/
theorem test_compress_is_not_issuable : Instr.compress.issuable = false := by decide

/-! ### Decoding, words written out bit by bit from R73 and R75: two bits of `op`, 64 of `len` -/

theorem test_decode_rsvd :
    decode (0b00#2 ++ 0b0000000000000000000000000000000000000000000000000000000000000000#64) []
      = ⟨.rsvd, [], 0⟩ := by decide

theorem test_decode_init :
    decode (0b01#2 ++ 0b0000000000000000000000000000000000000000000000000000000000000000#64) [0x61]
      = ⟨.init, [0x61], 0⟩ := by decide

/-- P1's second word, `0x2_0000000000000003`, with its beats and one more. -/
theorem test_decode_update :
    decode (0b10#2 ++ 0b0000000000000000000000000000000000000000000000000000000000000011#64)
        [0x61, 0x62, 0x63, 0x64]
      = ⟨.update [0x61, 0x62, 0x63], [0x64], 0⟩ := by decide

/-- An `UPDATE` of which only one of three beats is offered owes two (R74). -/
theorem test_decode_update_short :
    decode 0x20000000000000003#66 [0x61] = ⟨.update [0x61], [], 2⟩ := by decide

theorem test_decode_finish :
    decode (0b11#2 ++ 0b1111111111111111111111111111111111111111111111111111111111111111#64) []
      = ⟨.finish, [], 0⟩ := by decide

/-- V-F8: `len` of `INIT` is ignored. -/
theorem test_decode_init_ignores_len : decode 0x100000000DEADBEEF#66 [] = ⟨.init, [], 0⟩ := by decide

/-- The internal operation has no word (R75). -/
theorem test_encode_compress : encode .compress = none := by decide

/-- A number of 67 bits is no command word (R79). -/
theorem test_decode_rejects_67_bits : decodeTableWord 66 (2 ^ 66) = none := by decide

theorem test_table_words :
    decodeTableWord 66 0 = some .rsvd ∧ decodeTableWord 66 (2 ^ 64) = some .init ∧
    decodeTableWord 66 (2 * 2 ^ 64) = some (.update []) ∧
    decodeTableWord 66 (2 * 2 ^ 64 + 2) = some (.update [0, 0]) ∧
    decodeTableWord 66 (3 * 2 ^ 64) = some .finish := by decide

/-! ### Word functions (section 3.1) -/

theorem test_sigmas :
    smallSigma0 0x0123456789ABCDEF = 0x6F92C77C6C4F1AA1 ∧
    smallSigma1 0x0123456789ABCDEF = 0x70A3460DBBD4317A ∧
    bigSigma0 0x0123456789ABCDEF = 0xB7C57A100C7EC1AB ∧
    bigSigma1 0x0123456789ABCDEF = 0x7703112333475567 ∧
    smallSigma0 0xFFFFFFFFFFFFFFFF = 0x01FFFFFFFFFFFFFF ∧
    smallSigma1 0xFFFFFFFFFFFFFFFF = 0x03FFFFFFFFFFFFFF := by decide

theorem test_ch_and_maj :
    ch 0xFFFF0000FFFF0000 0x123456789ABCDEF0 0x0FEDCBA987654321 = 0x1234CBA99ABC4321 ∧
    maj 0xFFFF0000FFFF0000 0x123456789ABCDEF0 0x0FEDCBA987654321 = 0x1FFD42289FFD4220 := by decide

/-- R117 by way of section 3.1: addition wraps. -/
theorem test_addition_wraps : (0xFFFFFFFFFFFFFFFF : Word) + 1 = 0 := by decide

/-! ### COMPRESS (section 3.2) -/

/-- V-C1. -/
theorem test_compress_zeros :
    compress #v[0, 0, 0, 0, 0, 0, 0, 0] (blockOfByte 0x00)
      = #v[0xAD3A5DA838EBF830, 0x5D7142FF85FCBEDB, 0x7FA8BF86D6F7CA99, 0x1C6B15B039D70BBF,
           0x29F6515289923518, 0x6FD7101D5F2E8F3A, 0x1C358D2476531450, 0x568C0D99D756DC3C] := by
  decide +kernel

/-- V-C7, through the internal operation: the padded "abc" in the buffer. -/
theorem test_compress_buf_abc :
    nextField State.h
        (exec .compress { afterInit with buf := [(0, 0x61), (1, 0x62), (2, 0x63), (3, 0x80), (127, 0x18)] })
      = some #v[0x53048E2681941EF9, 0x9B2E29B76B4C7DAB, 0xE4C2D0C634FC6D46, 0xE0E2F13107E7AF23,
                0x0E35949B85D8F387, 0x2007B3491C26C06D, 0x82914C0C30EF079B, 0xA3656A19DD7F0618] := by
  decide +kernel

/-! ### IV (40_init.md R91, its generation procedure) -/

/-- The SHA-512 initial value: the first 64 fractional bits of the square roots of the first primes. -/
def sha512Words : StateWords :=
  #v[0x6A09E667F3BCC908, 0xBB67AE8584CAA73B, 0x3C6EF372FE94F82B, 0xA54FF53A5F1D36F1,
     0x510E527FADE682D1, 0x9B05688C2B3E6C1F, 0x1F83D9ABFB41BD6B, 0x5BE0CD19137E2179]

theorem test_sha512_words_are_square_roots :
    (([2, 3, 5, 7, 11, 13, 17, 19].zip [1, 1, 2, 2, 3, 3, 4, 4]).zip (sha512Words.toList)).all
      (fun x => decide ((x.1.2 * 2 ^ 64 + x.2.toNat) ^ 2 ≤ x.1.1 * 2 ^ 128 ∧
        x.1.1 * 2 ^ 128 < (x.1.2 * 2 ^ 64 + x.2.toNat + 1) ^ 2)) = true := by decide

/-- The bytes `SHA-512/256`, hashed from those words XORed with `0xA5…`, give `IV`. -/
theorem test_iv_is_generated :
    compressBlocks (sha512Words.map fun w => w ^^^ 0xA5A5A5A5A5A5A5A5)
      (blocksOf (padMessage [0x53, 0x48, 0x41, 0x2D, 0x35, 0x31, 0x32, 0x2F, 0x32, 0x35, 0x36])) = iv := by
  decide +kernel

/-! ### RSVD and the contract (section 3.8) -/

/-- V-F6. -/
theorem test_reserved_word_faults :
    faultOf (step (afterInit.withFetchWord 66 0x0DEADBEEF)) = some .cvReservedOp := by decide

/-- V-F1 and V-F3. -/
theorem test_idle_commands_fault :
    faultOf (step (State.reset.withFetchWord 66 0x20000000000000000)) = some .cvUpdateNotActive ∧
    faultOf (step (State.reset.withFetchWord 66 0x30000000000000000)) = some .cvFinishNotActive := by
  decide

/-! ### INIT (section 3.3) -/

/-- V-F8 through a step: `H` = `IV` and ACTIVE. -/
theorem test_step_init :
    nextField (fun t => (t.h, t.phase, t.pending)) (step (State.reset.withFetchWord 66 0x100000000DEADBEEF))
      = some (iv, .active, []) := by decide +kernel

/-- V-I4 and V-I2: the counters go to zero and the stale bytes stay. -/
theorem test_init_keeps_buf :
    nextField (fun t => (t.memRead1 126, t.totalBytes, t.highBitCount)) (exec .init atTheEdge)
      = some (0x55, 0, 0) := by decide +kernel

/-! ### UPDATE (section 3.4) -/

/-- Rows 5, 6, 9, 10 and 12 of the counters table. -/
theorem test_counters :
    (totalAfter 0x1FFFFFFFFFFFFF80 0x83, highAfter 0x1FFFFFFFFFFFFF80 0 0x83) = (3, 1) ∧
    (totalAfter 5 0x2000000000000000, highAfter 5 7 0x2000000000000000) = (5, 8) ∧
    (totalAfter 0 0xFFFFFFFFFFFFFFFF, highAfter 0 0 0xFFFFFFFFFFFFFFFF) = (0x1FFFFFFFFFFFFFFF, 7) ∧
    (totalAfter 0x1FFFFFFFFFFFFFFF 0xFFFFFFFFFFFFFFFF, highAfter 0x1FFFFFFFFFFFFFFF 0 0xFFFFFFFFFFFFFFFF)
      = (0x1FFFFFFFFFFFFFFE, 8) ∧
    (totalAfter 0 0xFFFFFFFFFFFFFFFF, highAfter 0 0xFFFFFFFFFFFFFFFC 0xFFFFFFFFFFFFFFFF)
      = (0x1FFFFFFFFFFFFFFF, 3) := by decide

/-- V-U1. -/
theorem test_update_abc :
    nextField (fun t => (t.buf, t.totalBytes, t.fill)) (exec (.update [0x61, 0x62, 0x63]) afterInit)
      = some ([(0, 0x61), (1, 0x62), (2, 0x63)], 3, 3) := by decide +kernel

/-- The second `UPDATE` of V-U7: the block is completed inside the call, `H` is the result of V-C4, and the
29th byte goes to `BUF[0]`. -/
theorem test_update_completes_a_block :
    nextField (fun t => (t.h[0], t.h[7], t.totalBytes, t.memRead1 0, t.memRead1 127))
        (exec (.update (pat 0x64 29)) { afterInit with buf := cells (pat 0x00 100), totalBytes := 100 })
      = some (0x7C541F1D1A72536B, 0x86354AF8E17B5116, 0x81, 0x80, 0x7F) := by decide +kernel

/-! ### FINISH (sections 3.5, 3.6 and programs P3, P5) -/

/-- The digest of "abc", from V-U1; afterwards the context is zero. -/
theorem test_finish_abc :
    nextField (fun t => (t.dout, t.phase, t.buf, t.totalBytes))
        (exec .finish { afterInit with buf := [(0, 0x61), (1, 0x62), (2, 0x63)], totalBytes := 3 })
      = some (some 0x53048E2681941EF99B2E29B76B4C7DABE4C2D0C634FC6D46E0E2F13107E7AF23, .idle, [], 0) := by
  decide +kernel

/-- P5c: the marker in `BUF[127]`, the extra block, and both halves of the length. -/
theorem test_finish_two_blocks :
    nextField State.dout (exec .finish { atTheEdge with highBitCount := 0xFEDCBA9876543210 })
      = some (some 0xF91026F53E39B484EE1B5D3C874A9616F76950216D555072FF5921FFBDFFBE16) := by
  decide +kernel

/-- The two sides of the extra-block test (R154): a tail of 111 bytes pads to one block, of 112 to two. -/
theorem test_pad_boundary :
    ({ afterInit with totalBytes := 111, buf := cells (pat 0x00 111) } : State).padTail.h = iv ∧
    ({ afterInit with totalBytes := 112, buf := cells (rep 0x61 112) } : State).padTail.h
      = #v[0x97C5CF69A7FBCA91, 0x2ECDC2BBB2DEDBCD, 0xA94A458B2FF42A15, 0x6A2B7ABD8DAA4FBA,
           0x60472B063A4D9A09, 0xB10214591A564F96, 0x65A11DF2B3B56E43, 0x758AA62DE5680831] := by
  decide +kernel

/-! ### RESET, the sequencer and the ports -/

/-- V-F9, with an `UPDATE` in flight. -/
theorem test_reset_abandons_an_update :
    step { owing with pending := [.reset, .beat 1] } = .next { State.reset with pending := [.beat 1] } := by
  rfl

/-- R74: a beat before any command is not accepted; the engine waits. -/
theorem test_beat_waits_for_a_command :
    nextField State.pending (step { State.reset with pending := [.beat 1] }) = some [.beat 1] := by decide

/-- R76: the transfer of a digest, after which `dout_data` is zero. -/
theorem test_take :
    nextField (fun t => (t.digests, t.doutData)) (step { holding with pending := [.take] })
      = some ([1], 0) := by decide

/-- V-I1's context image: 208 bytes, the first ones those of `IV[0]`, the last ones zero. -/
theorem test_context_image :
    afterInit.ctxImage.take 8 = [0x22, 0x31, 0x21, 0x94, 0xFC, 0x2B, 0xF7, 0x2C] ∧
    afterInit.ctxImage.drop 64 = List.replicate 144 0 := by decide +kernel

/-- R82: a trace in the call order with a digest delivered, and one that is not (V-F4, the second `FINISH`). -/
theorem test_traces :
    nextField (fun t => (t.phase, t.dout, t.digests.length))
        (runTrace [.init, .update ⟨[0x61], by decide⟩, .finish] State.reset) = some (.idle, none, 1) ∧
    faultOf (runTrace [.init, .finish, .finish] State.reset) = some .cvFinishNotActive := by decide +kernel

/-- R82: the largest `len`, 2^64 − 1, is one of an event, and 2^64 is none. -/
theorem test_event_payload_bound :
    (Instr.update (List.replicate (2 ^ 64 - 1) 0)).wf = true ∧
    ¬ ∃ p : Payload, p.val.length = 2 ^ 64 := by
  refine ⟨by simp only [Instr.wf, List.length_replicate]; decide, ?_⟩
  rintro ⟨p, hp⟩
  exact absurd p.length_lt (by omega)

/-- R81: a `pat` that wraps, and `rep`. -/
theorem test_shorthands : pat 0xFE 3 = [0xFE, 0xFF, 0x00] ∧ rep 0x61 2 = [0x61, 0x61] := by decide

/-- The buffer's cells after writing 0x00 over the only cell: nothing listed. -/
theorem test_memory_is_canonical : Mem.write [(5, 1)] 5 0 = [] ∧ Mem.wf [(5, 1), (4, 1)] = false := by decide

/-! ### Witnesses: for every statement with hypotheses, values that meet them, each clause at an edge -/

/-- The input ports with nothing offered. -/
def quiet : PortIn :=
  { rst := false, cmdValid := false, cmdOp := 0, cmdLen := 0, dinValid := false, dinData := 0,
    doutReady := false }

theorem test_witness_DecodeInvertsEncode :
    Instr.rsvd.wf = true ∧ encode .rsvd = some (0x00000000000000000#66, []) ∧
    Instr.init.wf = true ∧ encode .init = some (0x10000000000000000#66, []) ∧
    (Instr.update []).wf = true ∧ encode (.update []) = some (0x20000000000000000#66, []) ∧
    (Instr.update [0x61]).wf = true ∧ encode (.update [0x61]) = some (0x20000000000000001#66, [0x61]) ∧
    Instr.finish.wf = true ∧ encode .finish = some (0x30000000000000000#66, []) := by decide

theorem test_witness_EncodeInvertsDecode :
    (opField 0x20000000000000001#66 ≠ 0b10#2 → lenField 0x20000000000000001#66 = 0) ∧
    (decode 0x20000000000000001#66 [0x61, 0x62]).owed = 0 ∧
    (opField 0x30000000000000000#66 ≠ 0b10#2 → lenField 0x30000000000000000#66 = 0) ∧
    (decode 0x30000000000000000#66 []).owed = 0 := by decide

theorem test_witness_ReservedCommandIsAViolation :
    opField 0x0FFFFFFFFFFFFFFFF#66 = 0b00#2 ∧ opField 0x10000000000000000#66 ≠ 0b00#2 := by decide

theorem test_witness_UpdateNeedsTheActivePhase :
    State.reset.phase = .idle ∧ atTheEdge.phase = .active := by decide

theorem test_witness_UpdateFoldsTheCounters :
    atTheEdge.phase = .active ∧ atTheEdge.CountersInRange ∧ [(0x00 : Byte)].length < 2 ^ 64 := by decide

theorem test_witness_UpdateClosedForm :
    afterInit.phase = .active ∧ afterInit.fill + (rep 0x61 127).length < 128 ∧
    atTheEdge.phase = .active := by decide +kernel

theorem test_witness_UpdateWritesOnlyItsPositions :
    atTheEdge.phase = .active ∧
    (∀ j < [(0x01 : Byte)].length, (atTheEdge.fill + j) % 128 ≠ 0) ∧
    (0 < [(0x01 : Byte)].length ∧ [(0x01 : Byte)].length ≤ 0 + 128) ∧
    (1 < (rep 0x61 129).length ∧ (rep 0x61 129).length ≤ 1 + 128) := by decide +kernel

theorem test_witness_EmptyUpdateChangesNothing :
    atTheEdge.phase = .active ∧ atTheEdge.CountersInRange := by decide

theorem test_witness_UpdateIsStreaming :
    ([[], [0x61], []] : List (List Byte)).flatten = [0x61] ∧ atTheEdge.phase = .active ∧
    atTheEdge.CountersInRange := by decide

theorem test_witness_UpdateIsItsBeats :
    atTheEdge.phase = .active ∧ atTheEdge.CountersInRange := by decide

theorem test_witness_BlockwiseAbsorptionAgrees : atTheEdge.phase = .active ∧ atTheEdge.fill = 127 := by
  decide

theorem test_witness_FinishNeedsTheActivePhase : State.reset.phase = .idle := by decide

theorem test_witness_FinishAfterInitDeliversTheEmptyDigest : State.reset.phase = .idle := by decide

theorem test_witness_DeliveredFinishLeavesTheResetState :
    atTheEdge.phase = .active ∧ atTheEdge.owed = 0 := by decide

theorem test_witness_FinishCompressesThePaddedTail :
    atTheEdge.phase = .active ∧ afterInit.phase = .active := by decide

theorem test_witness_PaddedTailIsOneOrTwoBlocks :
    ({ afterInit with totalBytes := 111 } : State).fill ≤ 111 ∧
    112 ≤ ({ afterInit with totalBytes := 112 } : State).fill ∧ 112 ≤ atTheEdge.fill := by decide

theorem test_witness_LengthFieldCountsTheBits : atTheEdge.CountersInRange := by decide

theorem test_witness_FinalBlockHoldsTheLengthField : 0 < 8 ∧ 7 < 8 := by decide

/-- Two states that differ in the stale byte `BUF[0]` only. -/
theorem test_witness_StaleBytesReachNoDigest :
    let s' : State := { afterInit with buf := [(0, 0x55)] }
    afterInit.phase = .active ∧ s'.phase = .active ∧ afterInit.h = s'.h ∧
    afterInit.totalBytes = s'.totalBytes ∧ afterInit.highBitCount = s'.highBitCount ∧
    afterInit.live = s'.live ∧ afterInit ≠ s' := by decide

theorem test_witness_FinishZeroesTheContext :
    atTheEdge.phase = .active ∧ atTheEdge.ContextZero = False := by
  refine ⟨by decide, eq_false ?_⟩
  decide

theorem test_witness_MessageIsHashedEndToEnd :
    ([[0x61], [], [0x62]] : List (List Byte)).flatten.length < 2 ^ 125 := by decide

theorem test_witness_MessageCostsItsBlocks :
    (rep 0x61 111).length % 128 ≤ 111 ∧ 112 ≤ (rep 0x61 112).length % 128 ∧
    (rep 0x61 128).length % 128 ≤ 111 := by decide +kernel

theorem test_witness_ActiveContextHoldsTheMessage :
    ([] : List (List Byte)).flatten.length < 2 ^ 125 ∧
    ([rep 0x61 127, [0x61]] : List (List Byte)).flatten.length < 2 ^ 125 := by decide +kernel

theorem test_witness_ScheduleFollowsTheRecurrence : (16 ≤ 16 ∧ 16 < 80) ∧ (16 ≤ 79 ∧ 79 < 80) := by decide

theorem test_witness_CompressIsEightyRounds : 0 < 80 ∧ 79 < 80 := by decide

theorem test_witness_ChooseAndMajorityBitByBit : 0 < 64 ∧ 63 < 64 := by decide

theorem test_witness_SigmaFunctionsBitByBit : 63 < 64 ∧ (0 < 1 ∧ 1 < 64) ∧ (0 < 63 ∧ 63 < 64) := by decide

theorem test_witness_RoundConstantsAreCubeRoots : 0 < 80 ∧ 79 < 80 := by decide

theorem test_witness_CommandsWriteOnlyTheirState :
    (∃ t, exec .init State.reset = .next t ∧ t.phase ≠ State.reset.phase) ∧
    (∃ t, exec (.update [0x61]) afterInit = .next t) ∧
    (∃ t, exec .finish afterInit = .next t ∧ t.phase ≠ afterInit.phase) ∧
    (∃ t, exec .compress State.reset = .next t) :=
  ⟨⟨_, rfl, by decide⟩, ⟨_, rfl⟩, ⟨_, rfl, by decide⟩, ⟨_, rfl⟩⟩

theorem test_witness_ResetPutsEverythingToZero :
    ({ owing with pending := [.reset, .take] } : State).pending = .reset :: [.take] ∧
    atTheEdge.phase = .active := by decide

theorem test_witness_ResetFromAnyState :
    ({ holding with pending := [.reset] } : State).pending = .reset :: [] := by decide

/-- A `UPDATE` of three bytes of which two are offered, with a beat nobody waits for before it. -/
theorem test_witness_StepRunsTheDecodedCommand :
    let s : State := { afterInit with
      pending := [.beat 0x60, .command 0x20000000000000003#66, .beat 0x61] }
    firstOffer s.accepts s.pending
      = some (.command 0x20000000000000003#66, [.beat 0x60, .beat 0x61]) ∧
    decode 0x20000000000000003#66 (offeredBeats [.beat 0x60, .beat 0x61])
      = ⟨.update [0x60, 0x61], [], 1⟩ := by decide

theorem test_witness_StepKeepsTheInvariant :
    ({ owing with pending := [.beat 0x61] } : State).Inv ∧
    (∃ t, step { owing with pending := [.beat 0x61] } = .next t) ∧
    ({ holding with pending := [.take] } : State).Inv ∧
    (∃ t, step { holding with pending := [.take] } = .next t) :=
  ⟨by decide, ⟨_, rfl⟩, by decide, ⟨_, rfl⟩⟩

theorem test_witness_StepKeepsTheIdleContextZero :
    ({ holding with pending := [.take] } : State).Inv ∧
    ({ holding with pending := [.take] } : State).IdleZero ∧
    (∃ t, step { holding with pending := [.take] } = .next t ∧ t.phase = .idle) :=
  ⟨by decide, by decide, ⟨_, rfl, by decide⟩⟩

theorem holdingA_holdsMessage : holdingA.HoldsMessage [0x61] := ⟨by decide, by decide, by decide⟩

theorem test_witness_UpdateExtendsTheMessageHeld :
    holdingA.phase = .active ∧ holdingA.CountersInRange ∧ holdingA.HoldsMessage [0x61] :=
  ⟨by decide, by decide, holdingA_holdsMessage⟩

theorem test_witness_FinishDigestsTheMessageHeld :
    holdingA.phase = .active ∧ holdingA.CountersInRange ∧ holdingA.HoldsMessage [0x61] ∧
    [(0x61 : Byte)].length < 2 ^ 125 :=
  ⟨by decide, by decide, holdingA_holdsMessage, by decide⟩

/-- The last beat of an `UPDATE` in flight. -/
theorem test_witness_StepKeepsAMessageHeld :
    let s : State := { holdingA with owed := 1, pending := [.beat 0x62] }
    s.Inv ∧ s.HoldsSomeMessage ∧ ∃ t, step s = .next t ∧ t.phase = .active :=
  ⟨by decide, fun _ => ⟨[0x61], holdingA_holdsMessage⟩, _, rfl, by decide⟩

theorem test_witness_CommandChannelIsHeldOff :
    (owing.owed ≠ 0 ∨ owing.dout ≠ none) ∧ (holding.owed ≠ 0 ∨ holding.dout ≠ none) := by decide

theorem test_witness_CommandsWaitForTheOneInFlight :
    owing.owed ≠ 0 ∧ holding.dout ≠ none ∧ (State.reset.owed = 0 ∧ State.reset.dout = none) := by decide

theorem test_witness_IncompleteUpdateWaitsForItsBeats :
    (owing.stage = .absorbing ∧ offeredBeats owing.pending = [] ∧ HostEvent.reset ∉ owing.pending) ∧
    (({ owing with owed := 1, pending := [.beat 0x61] } : State).stage = .absorbing ∧
      ({ owing with owed := 1, pending := [.beat 0x61] } : State).pending = .beat 0x61 :: []) := by decide

theorem test_witness_DigestWaitsUntilTaken :
    (holding.dout = some 1 ∧ takeOffer holding.pending = none ∧ HostEvent.reset ∉ holding.pending) ∧
    ({ holding with pending := [.take] } : State).pending = .take :: [] := by decide

theorem test_witness_HashLineRunsInThreeSteps :
    let s : State := { State.reset with pending := (Line.hash [0x61]).events }
    s.stage = .ready ∧ [(0x61 : Byte)].length < 2 ^ 64 ∧ s.pending = (Line.hash [0x61]).events ∧
    s.pending.length = 5 := by decide

theorem test_witness_ExactlyOneChannelIsReady :
    State.reset.portOut.doutValid = false ∧ owing.portOut.doutValid = false := by decide

theorem test_witness_ResetPinOverridesTransfers :
    ({ quiet with rst := true, cmdValid := true, dinValid := true, doutReady := true } : PortIn).rst
      = true := by decide

/-- Two bytes, with an idle edge before, between and after them, and a further command offered while one is
owed. -/
theorem test_witness_PortLevelUpdateRefinesTheCommand :
    let first : PortIn := { quiet with cmdValid := true, cmdOp := 0b10#2, cmdLen := 2, dinValid := true }
    let ps : List PortIn := [quiet, { quiet with dinValid := true, dinData := 0x61 },
      { quiet with cmdValid := true, cmdOp := 0b11#2 }, { quiet with dinValid := true, dinData := 0x62 }, quiet]
    atTheEdge.stage = .ready ∧ atTheEdge.phase = .active ∧ atTheEdge.CountersInRange ∧
    first.rst = false ∧ first.cmdValid = true ∧ first.cmdOp = 0b10#2 ∧
    (∀ p ∈ ps, p.rst = false) ∧
    (∀ (k : Nat) (hk : k < ps.length), ps[k].cmdValid = true →
      ((ps.take k).filter fun p => p.dinValid).length < first.cmdLen.toNat) ∧
    ((ps.filter fun p => p.dinValid).length = first.cmdLen.toNat) := by decide

/-- Another command and a beat offered while the digest waits. -/
theorem test_witness_PortLevelFinishHoldsItsDigest :
    let first : PortIn := { quiet with cmdValid := true, cmdOp := 0b11#2 }
    let last : PortIn := { quiet with doutReady := true }
    let ps : List PortIn := [{ quiet with cmdValid := true, dinValid := true }]
    atTheEdge.stage = .ready ∧ atTheEdge.phase = .active ∧ first.rst = false ∧ first.cmdValid = true ∧
    first.cmdOp = 0b11#2 ∧ (∀ p ∈ ps, p.rst = false ∧ p.doutReady = false) ∧ last.rst = false ∧
    last.doutReady = true := by decide

theorem test_witness_ContextImageLayout : 0 < 128 ∧ 127 < 128 := by decide

end Sys2Proof.Tests
end

section
/-!
The big-endian conversions `be64` and `BE64` (spec/00_scope.md R9): the value of the one in terms of its
bytes, and that each undoes the other.
-/

namespace Sys2Proof.Machine

/-- One more byte behind a bit string shifts its value by one byte. -/
theorem toNat_append_byte {n : Nat} (x : BitVec n) (b : Byte) :
    (x ++ b).toNat = x.toNat * 2 ^ 8 + b.toNat := by
  rw [BitVec.toNat_append, ← Nat.shiftLeft_add_eq_or_of_lt b.isLt, Nat.shiftLeft_eq]

/-- `be64` is the sum of its bytes by powers of 256, the first one most significant. -/
theorem be64_toNat (b0 b1 b2 b3 b4 b5 b6 b7 : Byte) :
    (be64 b0 b1 b2 b3 b4 b5 b6 b7).toNat
      = b0.toNat * 2 ^ 56 + b1.toNat * 2 ^ 48 + b2.toNat * 2 ^ 40 + b3.toNat * 2 ^ 32
        + b4.toNat * 2 ^ 24 + b5.toNat * 2 ^ 16 + b6.toNat * 2 ^ 8 + b7.toNat := by
  simp only [be64, toNat_append_byte]
  ring

/-- The last byte of a bit string. -/
theorem extractLsb'_append_byte_zero {n : Nat} (x : BitVec n) (b : Byte) :
    (x ++ b).extractLsb' 0 8 = b :=
  BitVec.extractLsb'_append_eq_right

/-- A byte further up is found by passing over the last one. -/
theorem extractLsb'_append_byte_add {n : Nat} (x : BitVec n) (b : Byte) (k : Nat) :
    (x ++ b).extractLsb' (k + 8) 8 = x.extractLsb' k 8 := by
  rw [BitVec.extractLsb'_append_eq_of_le (Nat.le_add_left 8 k), Nat.add_sub_cancel]

/-- A field of a word and the byte below it make one field. -/
theorem extractLsb'_append_extractLsb'_byte (w : Word) (k n : Nat) :
    w.extractLsb' (k + 8) n ++ w.extractLsb' k 8 = w.extractLsb' k (n + 8) :=
  BitVec.extractLsb'_append_extractLsb'_eq_extractLsb' rfl

/-- `BE64(be64(s)) = s`. -/
@[simp] theorem bytesBE64_be64 (b0 b1 b2 b3 b4 b5 b6 b7 : Byte) :
    bytesBE64 (be64 b0 b1 b2 b3 b4 b5 b6 b7) = [b0, b1, b2, b3, b4, b5, b6, b7] := by
  simp only [bytesBE64, be64, extractLsb'_append_byte_zero, extractLsb'_append_byte_add,
    BitVec.extractLsb'_eq_self]

/-- `be64(BE64(w)) = w`: byte by byte the fields join to the whole word. -/
theorem be64_extractLsb' (w : Word) :
    be64 (w.extractLsb' 56 8) (w.extractLsb' 48 8) (w.extractLsb' 40 8) (w.extractLsb' 32 8)
      (w.extractLsb' 24 8) (w.extractLsb' 16 8) (w.extractLsb' 8 8) (w.extractLsb' 0 8) = w := by
  simp only [be64, extractLsb'_append_extractLsb'_byte]
  exact BitVec.extractLsb'_eq_self

end Sys2Proof.Machine

open Sys2Proof.Machine in
/-- Settles O35: the value of `be64` byte by byte, and its two compositions with `BE64`. -/
theorem bigEndianConversionsInvert : Obligations.BigEndianConversionsInvert := by
  unfold Obligations.BigEndianConversionsInvert
  refine ⟨fun b0 b1 b2 b3 b4 b5 b6 b7 => ⟨?value, ?bytesOfWord⟩, fun w => ⟨?bytes, ?wordOfBytes⟩⟩
  case value => exact be64_toNat b0 b1 b2 b3 b4 b5 b6 b7
  case bytesOfWord => exact bytesBE64_be64 b0 b1 b2 b3 b4 b5 b6 b7
  case bytes => rfl
  case wordOfBytes => exact be64_extractLsb' w

end

section
/-!
`RESET` and the wipe of `FINISH`: the whole state after a step that takes a `RESET`, the state after a
`FINISH` inside the contract, and the context image of a zero context (spec/10_state.md R32, R37).
-/

namespace Sys2Proof.Machine

/-- The engine takes a `RESET` offered first, whatever its stage: the offer test answers `true` for it. -/
theorem step_of_reset_pending {s : State} {es : List HostEvent} (h : s.pending = .reset :: es) :
    step s = .next { State.reset with pending := es, digests := s.digests } := by
  have hfirst : firstOffer s.accepts s.pending = some (.reset, es) := by rw [h]; rfl
  simp only [step, State.nextMove, hfirst, State.resetEngine]

/-- `FINISH` inside the contract wipes the context and holds its digest on the output. -/
theorem exec_finish_active {s : State} (h : s.phase = .active) :
    exec .finish s = .next { s.wipe with dout := some (digestWord s.finalize.h) } := by
  simpa [h] using exec_cases .finish s

/-- An empty buffer reads as 128 zero bytes. -/
theorem State.bufBytes_of_buf_nil {s : State} (h : s.buf = []) :
    s.bufBytes = List.replicate 128 0 := by
  have hread : s.memRead1 = fun _ => 0 := by
    funext a
    rw [State.memRead1, h, Mem.read_nil, Mem.unlisted]
  rw [State.bufBytes, hread, List.map_const', List.length_range]

theorem bytesBE64_zero : bytesBE64 0 = List.replicate 8 0 := by decide

/-- A zero context has an all-zero image: eight zero words, 128 zero bytes and two zero counters. -/
theorem State.ctxImage_of_contextZero {s : State} (h : s.ContextZero) :
    s.ctxImage = List.replicate 208 0 := by
  obtain ⟨hh, hbuf, htotal, hhigh⟩ := h
  have hword (i : Nat) (hi : i < 8) : s.h[i] = 0 := by rw [hh]; interval_cases i <;> rfl
  simp only [State.ctxImage, hword, htotal, hhigh, State.bufBytes_of_buf_nil hbuf, bytesBE64_zero,
    List.replicate_append_replicate]

end Sys2Proof.Machine

open Sys2Proof.Machine in
/-- Settles O39: both the reset state and the state `FINISH` leaves are known whole, so each item is read
off; the context image is that of a zero context. -/
theorem resetPutsEverythingToZero : Obligations.ResetPutsEverythingToZero := by
  unfold Obligations.ResetPutsEverythingToZero
  refine ⟨fun s es hreset => ?reset, fun s hactive => ?finish⟩
  case reset =>
    exact ⟨_, step_of_reset_pending hreset, rfl, Mem.read_nil, rfl, rfl, rfl, rfl, rfl, rfl,
      State.ctxImage_of_contextZero ⟨rfl, rfl, rfl, rfl⟩⟩
  case finish =>
    exact ⟨_, exec_finish_active hactive, rfl, Mem.read_nil, rfl, rfl, rfl⟩

end

section
/-!
The command channel while a command is in flight: when `cmd_ready` is low, and what an edge does outside
the stage in which commands are accepted (spec/20_memory.md R63, 30_encoding.md R72, R83).
-/

namespace Sys2Proof.Machine

/-- `cmd_ready` is low exactly while a command is in flight. -/
theorem State.cmdReady_eq_false (s : State) :
    s.cmdReady = false ↔ s.owed ≠ 0 ∨ s.dout ≠ none := by
  rw [State.cmdReady, decide_eq_false_iff_not, State.stage_eq_ready, not_and_or, or_comm]

/-- An edge with `rst` = 1 is a `RESET`. -/
theorem State.edge_of_rst {s : State} {p : PortIn} (hrst : p.rst = true) :
    s.edge p = .next s.resetEngine := by
  rw [State.edge, if_pos hrst]

/-- An edge while an `UPDATE` owes bytes looks at the data channel only. -/
theorem State.edge_of_absorbing {s : State} {p : PortIn} (hrst : p.rst = false)
    (hstage : s.stage = .absorbing) :
    s.edge p = .next (if p.dinValid then s.acceptBeat p.dinData else s) := by
  cases hdin : p.dinValid <;> simp [State.edge, hrst, hstage, hdin]

/-- An edge while a digest is held looks at the host's readiness to take it only. -/
theorem State.edge_of_emitting {s : State} {p : PortIn} (hrst : p.rst = false)
    (hstage : s.stage = .emitting) :
    s.edge p = .next (if p.doutReady then s.transferDigest else s) := by
  cases hdout : p.doutReady <;> simp [State.edge, hrst, hstage, hdout]

/-- Outside the ready stage, and under `rst`, no edge looks at `cmd_valid`. -/
theorem State.edge_cmdValid_of_not_ready {s : State} (hstage : s.stage ≠ .ready) (p : PortIn) (v : Bool) :
    s.edge { p with cmdValid := v } = s.edge p := by
  obtain hrst | hrst := p.rst.eq_false_or_eq_true
  · exact Eq.trans (State.edge_of_rst hrst) (State.edge_of_rst hrst).symm
  · cases hs : s.stage with
    | ready => exact absurd hs hstage
    | absorbing => exact Eq.trans (State.edge_of_absorbing hrst hs) (State.edge_of_absorbing hrst hs).symm
    | emitting => exact Eq.trans (State.edge_of_emitting hrst hs) (State.edge_of_emitting hrst hs).symm

end Sys2Proof.Machine

open Sys2Proof.Machine in
/-- Settles O58: a command in flight makes `cmd_ready` low, so the stage is not the ready one, and in the
other two stages an edge does not look at `cmd_valid`. -/
theorem commandChannelIsHeldOff : Obligations.CommandChannelIsHeldOff := by
  unfold Obligations.CommandChannelIsHeldOff
  intro s p hflight
  have hlow : s.cmdReady = false := s.cmdReady_eq_false.mpr hflight
  have hstage : s.stage ≠ .ready := of_decide_eq_false hlow
  exact ⟨hlow, (State.edge_cmdValid_of_not_ready hstage p false).symm⟩

end

section
/-!
The reserved command at the decoder: the words that decode to it are exactly those with `op` = 00, and it
faults in every state (spec/30_encoding.md R75, R78).
-/

namespace Sys2Proof.Machine

/-- The four values of `op`, one per command word kind (R75). -/
theorem opField_cases (w : Command) :
    opField w = 0b00#2 ∨ opField w = 0b01#2 ∨ opField w = 0b10#2 ∨ opField w = 0b11#2 := by
  generalize opField w = op
  revert op
  decide

/-- A word is reserved exactly when its `op` is 00: `len` and the beats offered have no say. -/
theorem decode_instr_eq_rsvd (w : Command) (beats : List Byte) :
    (decode w beats).instr = .rsvd ↔ opField w = 0b00#2 := by
  obtain hop | hop | hop | hop := opField_cases w <;> simp [decode, hop]

/-- The reserved command faults in every state. -/
@[simp] theorem exec_rsvd (s : State) : exec .rsvd s = .fault .cvReservedOp := rfl

end Sys2Proof.Machine

open Sys2Proof.Machine in
/-- Settles O5: the words with `op` = 00 are exactly those that decode to the reserved command, which
faults in every state. -/
theorem reservedCommandIsAViolation : Obligations.ReservedCommandIsAViolation := by
  unfold Obligations.ReservedCommandIsAViolation
  intro w beats s
  have hiff := decode_instr_eq_rsvd w beats
  refine ⟨fun hop => ?fault, fun hop => ?other⟩
  case fault => rw [hiff.mpr hop, exec_rsvd]
  case other => exact mt hiff.mp hop

end

section
/-!
`INIT` at the dispatcher, the decoder and the encoder: its effect in any state, the words that decode to
it, and its canonical word (spec/40_init.md R90, 30_encoding.md R73, R77).
-/

namespace Sys2Proof.Machine

/-- The `op` field of a command word built from its two fields (R73). -/
@[simp] theorem opField_commandWord (op : BitVec 2) (len : Word) :
    opField (commandWord op len) = op := by
  rw [opField, commandWord, BitVec.extractLsb'_append_eq_left]

/-- A word decodes to `INIT` exactly when its `op` is 01: `len` and the beats offered have no say. -/
theorem decode_instr_eq_init (w : Command) (beats : List Byte) :
    (decode w beats).instr = .init ↔ opField w = 0b01#2 := by
  obtain hop | hop | hop | hop := opField_cases w <;> simp [decode, hop]

/-- `INIT` completes in every state, and writes `H`, the two counters and `phase` only. -/
@[simp] theorem exec_init (s : State) :
    exec .init s
      = .next { s with h := iv, totalBytes := 0, highBitCount := 0, phase := .active } := rfl

/-- The canonical word of `INIT` has `len` = 0 and no beats behind it (R77). -/
theorem encode_init : encode .init = some (0x10000000000000000#66, []) := by decide

end Sys2Proof.Machine

open Sys2Proof.Machine in
/-- Settles O6: the effect of `INIT` from its rule, its words from their `op` field, and its canonical
word from the encoder. -/
theorem initEstablishesAFreshContext : Obligations.InitEstablishesAFreshContext := by
  unfold Obligations.InitEstablishesAFreshContext
  refine ⟨fun s => ?effect, fun len beats => ?decoded, ?canonical⟩
  case effect => exact exec_init s
  case decoded => exact (decode_instr_eq_init _ beats).mpr (opField_commandWord 0b01#2 len)
  case canonical => exact encode_init

end

section
/-!
The message schedule of a block: its length, its first 16 words and the recurrence of the others
(spec/41_compress.md R110, R111). The model builds it with the latest word first; the lemmas follow it
through `expandSchedule` and read it in order.
-/

namespace Sys2Proof.Machine

/-- Every word from place 16 on is the one the recurrence makes of those before it (R111). -/
def FollowsRecurrence (W : List Word) : Prop :=
  ∀ t, 16 ≤ t → t < W.length →
    W.getD t 0 = W.getD (t - 16) 0 + smallSigma0 (W.getD (t - 15) 0) + W.getD (t - 7) 0
      + smallSigma1 (W.getD (t - 2) 0)

/-- The next word in terms of the words so far in order, the latest last. -/
theorem nextScheduleWord_reverse {W : List Word} (hlen : 16 ≤ W.length) :
    nextScheduleWord W.reverse
      = W.getD (W.length - 16) 0 + smallSigma0 (W.getD (W.length - 15) 0) + W.getD (W.length - 7) 0
        + smallSigma1 (W.getD (W.length - 2) 0) := by
  have hback (i : Nat) (hi : i < 16) : W.reverse.getD i 0 = W.getD (W.length - (i + 1)) 0 := by
    rw [List.getD_reverse i (by omega), Nat.sub_sub, Nat.add_comm 1 i]
  simp only [nextScheduleWord, hback, Nat.reduceLT, Nat.reduceAdd]

/-- The next word keeps the recurrence. -/
theorem FollowsRecurrence.append_nextScheduleWord {W : List Word} (hlen : 16 ≤ W.length)
    (hW : FollowsRecurrence W) : FollowsRecurrence (W ++ [nextScheduleWord W.reverse]) := by
  intro t h16 ht
  have hold (i : Nat) (hi : i < W.length) :
      (W ++ [nextScheduleWord W.reverse]).getD i 0 = W.getD i 0 := List.getD_append _ _ _ _ hi
  rw [List.length_append, List.length_singleton] at ht
  rw [hold (t - 16) (by omega), hold (t - 15) (by omega), hold (t - 7) (by omega),
    hold (t - 2) (by omega)]
  obtain hlt | rfl : t < W.length ∨ t = W.length := by omega
  · rw [hold t hlt, hW t h16 hlt]
  · rw [List.getD_append_right _ _ _ _ le_rfl, Nat.sub_self, List.getD_cons_zero,
      nextScheduleWord_reverse hlen]

@[simp] theorem length_expandSchedule (n : Nat) (latest : List Word) :
    (expandSchedule n latest).length = latest.length + n := by
  induction n generalizing latest with
  | zero => rfl
  | succ n ih => rw [expandSchedule, ih, List.length_cons]; omega

/-- Expanding keeps the words it starts from, which are the last ones of a list with the latest first. -/
theorem suffix_expandSchedule (n : Nat) (latest : List Word) : latest <:+ expandSchedule n latest := by
  induction n generalizing latest with
  | zero => exact List.suffix_rfl
  | succ n ih => exact (List.suffix_cons _ latest).trans (ih _)

/-- Expanding at least 16 words keeps the recurrence. -/
theorem FollowsRecurrence.reverse_expandSchedule {latest : List Word} (n : Nat) (hlen : 16 ≤ latest.length)
    (hlatest : FollowsRecurrence latest.reverse) :
    FollowsRecurrence (expandSchedule n latest).reverse := by
  induction n generalizing latest with
  | zero => exact hlatest
  | succ n ih =>
    have hnext := hlatest.append_nextScheduleWord (by rwa [List.length_reverse])
    rw [List.reverse_reverse, ← List.reverse_cons] at hnext
    exact ih (hlen.trans (Nat.le_succ _)) hnext

@[simp] theorem length_loadWords (block : Block) : (loadWords block).length = 16 := by
  rw [loadWords, List.length_map, List.length_finRange]

@[simp] theorem length_schedule (block : Block) : (schedule block).length = 80 := by
  rw [schedule, List.length_reverse, length_expandSchedule, List.length_reverse, length_loadWords]

/-- The schedule begins with the words of the block. -/
theorem loadWords_prefix_schedule (block : Block) : loadWords block <+: schedule block := by
  rw [← List.reverse_reverse (loadWords block), schedule, List.reverse_prefix]
  exact suffix_expandSchedule 64 _

/-- R110. -/
theorem schedule_getD_of_lt (block : Block) (i : Fin 16) :
    (schedule block).getD i.val 0 = loadWord block i := by
  have hi : i.val < (loadWords block).length := by rw [length_loadWords]; exact i.isLt
  obtain ⟨rest, hrest⟩ := loadWords_prefix_schedule block
  rw [← hrest, List.getD_append _ _ _ _ hi, List.getD_eq_getElem _ _ hi]
  simp [loadWords]

/-- R111. -/
theorem schedule_followsRecurrence (block : Block) : FollowsRecurrence (schedule block) := by
  refine FollowsRecurrence.reverse_expandSchedule 64 (by simp) fun t h16 ht => ?_
  rw [List.reverse_reverse, length_loadWords] at ht
  omega

end Sys2Proof.Machine

open Sys2Proof.Machine in
/-- Settles O29: the schedule begins with the block's words, and each word added keeps the recurrence. -/
theorem scheduleFollowsTheRecurrence : Obligations.ScheduleFollowsTheRecurrence := by
  unfold Obligations.ScheduleFollowsTheRecurrence
  refine fun block => ⟨length_schedule block, fun i => ?load, fun t h16 ht => ?recurrence⟩
  case load => exact schedule_getD_of_lt block i
  case recurrence => exact schedule_followsRecurrence block t h16 (by rwa [length_schedule])

end

section
/-!
`COMPRESS` round by round: the working variables before each of the 80 rounds (spec/41_compress.md R113
to R115).
-/

namespace Sys2Proof.Machine

/-- The working variables before round `t`; those of `t` = 80 are the final ones (R113, R114). -/
def workingBefore (hin : StateWords) (block : Block) (t : Nat) : Working :=
  ((kTable.zip (schedule block)).take t).foldl compressRound (startWorking hin)

/-- The first round starts from the state words (R113). -/
theorem workingBefore_zero (hin : StateWords) (block : Block) :
    workingBefore hin block 0 = startWorking hin := by
  rw [workingBefore, List.take_zero, List.foldl_nil]

@[simp] theorem length_kTable : kTable.length = 80 := rfl

theorem length_kTable_zip_schedule (block : Block) : (kTable.zip (schedule block)).length = 80 := by
  rw [List.length_zip, length_kTable, length_schedule, Nat.min_self]

/-- Round `t` takes the variables before it to those before the next, with `K[t]` and `W[t]`. -/
theorem workingBefore_succ (hin : StateWords) (block : Block) {t : Nat} (ht : t < 80) :
    workingBefore hin block (t + 1)
      = compressRound (workingBefore hin block t) (kTable.getD t 0, (schedule block).getD t 0) := by
  have hzip : t < (kTable.zip (schedule block)).length := by rwa [length_kTable_zip_schedule]
  have hk : t < kTable.length := by rwa [length_kTable]
  have hw : t < (schedule block).length := by rwa [length_schedule]
  rw [workingBefore, ← List.take_concat_get' _ t hzip, List.foldl_concat, List.getElem_zip,
    List.getD_eq_getElem _ _ hk, List.getD_eq_getElem _ _ hw, workingBefore]

/-- All 80 rounds make the final variables. -/
theorem workingBefore_eighty (hin : StateWords) (block : Block) :
    workingBefore hin block 80 = finalWorking hin block := by
  rw [workingBefore, ← length_kTable_zip_schedule block, List.take_length, finalWorking]

/-- `compress` is irreducible; this is its one unfolding. -/
theorem compress_eq_feedForward (hin : StateWords) (block : Block) :
    compress hin block = feedForward hin (finalWorking hin block) := by
  unfold compress
  rfl

end Sys2Proof.Machine

open Sys2Proof.Machine in
/-- Settles O30: the variables before each round are the witness; a round is `compressRound` at `K[t]` and
`W[t]`, and the feed-forward adds the state words to those after the last. -/
theorem compressIsEightyRounds : Obligations.CompressIsEightyRounds := by
  unfold Obligations.CompressIsEightyRounds
  refine fun hin block => ⟨workingBefore hin block, workingBefore_zero hin block,
    fun t ht T1 T2 hT1 hT2 => ?round, ?addition⟩
  case round => rw [workingBefore_succ hin block ht, hT1, hT2]; rfl
  case addition =>
    rw [compress_eq_feedForward, ← workingBefore_eighty, feedForward]

end

section
/-!
`COMPRESS_BUF` at the dispatcher (spec/41_compress.md R119).
-/

namespace Sys2Proof.Machine

/-- The internal operation completes in every state. -/
@[simp] theorem exec_compress (s : State) : exec .compress s = .next s.compressBuf := rfl

/-- `COMPRESS_BUF` writes `H` only, and takes its block from the 128 cells of `BUF`. -/
theorem State.compressBuf_eq (s : State) :
    s.compressBuf
      = { s with h := compress s.h (Vector.ofFn fun i : Fin 128 => Mem.read s.buf i.val) } := rfl

end Sys2Proof.Machine

open Sys2Proof.Machine in
/-- Settles O28: the operation is `COMPRESS_BUF` in every state, which writes nothing but `H`. -/
theorem compressBufReplacesOnlyTheStateWords : Obligations.CompressBufReplacesOnlyTheStateWords := by
  unfold Obligations.CompressBufReplacesOnlyTheStateWords
  intro s
  rw [exec_compress, State.compressBuf_eq]

end

section
/-!
`UPDATE` at the dispatcher: its fault in the IDLE phase, the byte counter after it, and the empty payload
(spec/42_update.md R132, R133, R135, 10_state.md R31).
-/

namespace Sys2Proof.Machine

/-- `UPDATE` in the IDLE phase faults, whatever its payload. -/
theorem exec_update_idle {s : State} (p : List Byte) (h : s.phase = .idle) :
    exec (.update p) s = .fault .cvUpdateNotActive := by
  simpa [h] using exec_cases (.update p) s

/-- Fewer than 2^64 bytes on top of an in-range `total_bytes` make at most 8 units of 2^61. -/
theorem unitsAdded_le_eight {total n : Nat} (htotal : total < 2 ^ 61) (hn : n < 2 ^ 64) :
    (total + n) / 2 ^ 61 ≤ 8 := by
  omega

theorem State.absorb_totalBytes_toNat (s : State) (p : List Byte) :
    (s.absorb p).totalBytes.toNat = (s.totalBytes.toNat + p.length) % 2 ^ 61 := by
  rw [State.absorb_totalBytes, totalAfter_toNat]

theorem State.absorb_highBitCount_toNat (s : State) (p : List Byte) :
    (s.absorb p).highBitCount.toNat
      = (s.highBitCount.toNat + (s.totalBytes.toNat + p.length) / 2 ^ 61) % 2 ^ 64 := by
  rw [State.absorb_highBitCount, highAfter_toNat]

/-- The two counters advance together as the one 125-bit counter `N` (R31): the units that leave the low
one enter the high one. -/
theorem State.absorb_byteCount (s : State) (p : List Byte) :
    (s.absorb p).byteCount = (s.byteCount + p.length) % 2 ^ 125 := by
  rw [State.byteCount, State.byteCount, State.absorb_totalBytes_toNat, State.absorb_highBitCount_toNat]
  omega

/-- With (I-a), absorbing no bytes leaves the whole state as it is. -/
theorem State.absorb_nil {s : State} (h : s.CountersInRange) : s.absorb [] = s := by
  rw [State.absorb_eq, List.length_nil, totalAfter_zero h, highAfter_zero _ h]
  rfl

end Sys2Proof.Machine

open Sys2Proof.Machine in
/-- Settles O10: an ACTIVE `UPDATE` absorbs its payload, and each counter after that is known by value. -/
theorem updateFoldsTheCounters : Obligations.UpdateFoldsTheCounters := by
  unfold Obligations.UpdateFoldsTheCounters
  intro payload s hactive hrange
  refine ⟨s.absorb payload, exec_update_active payload hactive, ?total, ?high, ?units, ?count⟩
  case total => exact State.absorb_totalBytes_toNat s payload
  case high => exact State.absorb_highBitCount_toNat s payload
  case units => exact unitsAdded_le_eight hrange
  case count => exact State.absorb_byteCount s payload

open Sys2Proof.Machine in
/-- Settles O13: an ACTIVE `UPDATE` absorbs its payload, and absorbing nothing changes nothing. -/
theorem emptyUpdateChangesNothing : Obligations.EmptyUpdateChangesNothing := by
  unfold Obligations.EmptyUpdateChangesNothing
  intro s hactive hrange
  rw [exec_update_active [] hactive, State.absorb_nil hrange]

open Sys2Proof.Machine in
/-- Settles O9: one rule of `UPDATE` per phase. -/
theorem updateNeedsTheActivePhase : Obligations.UpdateNeedsTheActivePhase := by
  unfold Obligations.UpdateNeedsTheActivePhase
  intro payload s
  refine ⟨fun hidle => ?idle, fun hactive => ?active⟩
  case idle => exact exec_update_idle payload hidle
  case active => exact ⟨s.absorb payload, exec_update_active payload hactive⟩

end

section
/-!
The padding steps of `FINISH` as bytes of `BUF`: the length field of the final block in every state, and
the whole final block when marker and length field fit behind the live bytes (spec/43_finish.md R153 to
R157, R160).
-/

namespace Sys2Proof.Machine

/-- An eight-byte write read back at its own addresses. -/
theorem State.memRead1_memWrite8_same (s : State) (a : Nat) (v : Word) {i : Nat} (hi : i < 8) :
    (s.memWrite8 a v).memRead1 (a + i) = (bytesBE64 v).getD i 0 := by
  rw [State.memRead1_memWrite8, if_pos (by omega), Nat.add_sub_cancel_left]

/-- An eight-byte write leaves every address below its own as it was. -/
theorem State.memRead1_memWrite8_of_lt (s : State) {a i : Nat} (v : Word) (hi : i < a) :
    (s.memWrite8 a v).memRead1 i = s.memRead1 i := by
  rw [State.memRead1_memWrite8, if_neg (by omega)]

/-- Whatever was padded before, the last two writes are the length field (R156). -/
theorem State.padTail_eq_memWrite8 (s : State) :
    ∃ padded : State, s.padTail
      = (padded.memWrite8 112 s.highBitCount).memWrite8 120 (bitlenLo s.totalBytes) :=
  ⟨_, rfl⟩

/-- With at least 16 bytes free behind the marker there is no extra block (R154, R155). -/
theorem State.padTail_of_fill_le {s : State} (hfill : s.fill ≤ 111) :
    s.padTail
      = (((s.memWrite1 s.fill 0x80).zeroFrom (s.fill + 1) 112).memWrite8 112
          s.highBitCount).memWrite8 120 (bitlenLo s.totalBytes) := by
  have hfree : ¬ 128 - (s.fill + 1) < 16 := by omega
  simp only [State.padTail, if_neg hfree]

/-- After a run of writes from address `a` on, the front of `BUF` is the old one up to `a` and then the
bytes written. -/
theorem State.front_of_buf_eq_writeList {s t : State} {a : Nat} {bs : List Byte}
    (h : t.buf = Mem.writeList s.buf a bs) : t.front (a + bs.length) = s.front a ++ bs := by
  induction bs generalizing s a with
  | nil => rw [List.append_nil]; exact State.front_congr fun i _ => State.memRead1_congr h i
  | cons b bs ih =>
    have hrest : t.front (a + 1 + bs.length) = (s.memWrite1 a b).front (a + 1) ++ bs := ih h
    rw [List.length_cons, Nat.add_comm bs.length 1, ← Nat.add_assoc, hrest, State.front_memWrite1,
      List.append_assoc, List.singleton_append]

theorem State.front_memWrite8 (s : State) (a : Nat) (v : Word) :
    (s.memWrite8 a v).front (a + 8) = s.front a ++ bytesBE64 v :=
  State.front_of_buf_eq_writeList (State.memWrite8_buf s a v)

theorem State.front_zeroFrom (s : State) {lo hi : Nat} (h : lo ≤ hi) :
    (s.zeroFrom lo hi).front hi = s.front lo ++ List.replicate (hi - lo) 0x00 := by
  have hfront := State.front_of_buf_eq_writeList (State.zeroFrom_buf s lo hi)
  rwa [List.length_replicate, Nat.add_sub_cancel' h] at hfront

/-- Up to 111 bytes, the zeros after the marker reach the length field of the same block. -/
theorem zeroPadding_of_le {n : Nat} (h : n ≤ 111) :
    zeroPadding n = List.replicate (112 - (n + 1)) 0x00 := by
  rw [zeroPadding, show ((111 - (n : Int)) % 128).toNat = 112 - (n + 1) by omega]

/-- Without an extra block, the whole of `BUF` after the padding steps is the padded tail (R160): each
write appends its bytes to those in front of it. -/
theorem State.front_padTail_of_fill_le {s : State} (hfill : s.fill ≤ 111) :
    s.padTail.front 128 = s.paddedTail := by
  rw [State.padTail_of_fill_le hfill, State.front_memWrite8 _ 120, State.front_memWrite8 _ 112,
    State.front_zeroFrom _ (by omega), State.front_memWrite1, State.paddedTail,
    zeroPadding_of_le hfill, State.live_eq_front]

/-- Without an extra block, `FINISH` compresses the padded tail into the state words, once (R157). -/
theorem State.finalize_h_of_fill_le {s : State} (hfill : s.fill ≤ 111) :
    s.finalize.h = compress s.h (blockAt s.paddedTail 0) := by
  have hh : s.padTail.h = s.h := by rw [State.padTail_of_fill_le hfill]; rfl
  rw [State.finalize, State.compressBuf_h, hh, State.block_eq_blockAt_front,
    State.front_padTail_of_fill_le hfill]

end Sys2Proof.Machine

open Sys2Proof.Machine in
/-- Settles O21: the two halves of the length field are written last, the low one behind the high one. -/
theorem finalBlockHoldsTheLengthField : Obligations.FinalBlockHoldsTheLengthField := by
  unfold Obligations.FinalBlockHoldsTheLengthField
  intro s i hi
  obtain ⟨padded, hpad⟩ := s.padTail_eq_memWrite8
  rw [hpad]
  refine ⟨?high, ?low⟩
  case high => rw [State.memRead1_memWrite8_of_lt _ _ (by omega), State.memRead1_memWrite8_same _ _ _ hi]
  case low => exact State.memRead1_memWrite8_same _ _ _ hi

end

section
/-!
A whole `FINISH`, its digest delivered: the fault in the IDLE phase, the state it leaves, and the digest of
the empty message (spec/43_finish.md R151, R158, R159, R161).
-/

namespace Sys2Proof.Machine

/-- `FINISH` in the IDLE phase faults. -/
theorem exec_finish_idle {s : State} (h : s.phase = .idle) :
    exec .finish s = .fault .cvFinishNotActive := by
  simpa [h] using exec_cases .finish s

theorem finish_apply_idle {s : State} (h : s.phase = .idle) :
    Event.finish.apply s = .fault .cvFinishNotActive := by
  rw [Event.apply, exec_finish_idle h, onNext_fault]

/-- A whole `FINISH` inside the contract wipes the context and hands its digest to the host. -/
theorem finish_apply_active {s : State} (h : s.phase = .active) :
    Event.finish.apply s
      = .next { s.wipe with dout := none, digests := s.digests ++ [digestWord s.finalize.h] } := by
  rw [Event.apply, exec_finish_active h, onNext_next, State.transferDigest_some rfl, State.wipe_digests]

/-- With no bytes owed, the wipe leaves the reset state but for the digest output and the host's side. -/
theorem State.wipe_eq_reset {s : State} (howed : s.owed = 0) :
    s.wipe = { State.reset with dout := s.dout, pending := s.pending, digests := s.digests } := by
  rw [State.wipe, howed]
  rfl

/-- The padding of the empty message is one block: the marker, 111 zeros and the length 0 (R161). -/
theorem length_padMessage_nil : (padMessage []).length = 128 := by
  simp [padMessage, bytesBE128, zeroPadding_of_le]

/-- The state words of the empty message: its padding is one block, compressed into `IV` (R161). -/
theorem messageWords_nil : messageWords [] = compress iv (blockAt (padMessage []) 0) := by
  rw [messageWords, blocksOf_single length_padMessage_nil, compressBlocks_cons, compressBlocks_nil]

/-- A fresh context has the state words of the empty message for its final ones: it has no live bytes, so
its padded tail is the padding of the empty message. -/
theorem State.finalize_h_of_fresh {s : State} (hh : s.h = iv) (htotal : s.totalBytes = 0)
    (hhigh : s.highBitCount = 0) : s.finalize.h = messageWords [] := by
  have hfill : s.fill = 0 := by rw [State.fill, htotal]; rfl
  have htail : s.paddedTail = padMessage [] := by
    rw [State.paddedTail, State.live_eq_front, hfill, hhigh, htotal, List.append_assoc]
    rfl
  rw [State.finalize_h_of_fill_le (by omega), hh, htail, messageWords_nil]

end Sys2Proof.Machine

open Sys2Proof.Machine in
/-- Settles O60: the state a whole `FINISH` leaves is the wiped one, which is the reset state when no bytes
are owed; its context is zero. -/
theorem deliveredFinishLeavesTheResetState : Obligations.DeliveredFinishLeavesTheResetState := by
  unfold Obligations.DeliveredFinishLeavesTheResetState
  intro s hactive howed
  refine ⟨_, finish_apply_active hactive, ?image, rfl, ?state⟩
  case image => exact State.ctxImage_of_contextZero ⟨rfl, rfl, rfl, rfl⟩
  case state => rw [State.wipe_eq_reset howed]; rfl

open Sys2Proof.Machine in
/-- Settles O59: the rule of a whole `FINISH` for each phase, and the final state words of the context
`INIT` leaves. -/
theorem finishAfterInitDeliversTheEmptyDigest : Obligations.FinishAfterInitDeliversTheEmptyDigest := by
  unfold Obligations.FinishAfterInitDeliversTheEmptyDigest
  intro s
  refine ⟨finish_apply_idle, _, _, exec_init s, finish_apply_active rfl, rfl, ?digest⟩
  rw [State.finalize_h_of_fresh rfl rfl rfl]

end

section
/-!
The decoder and the encoder as inverses: what each value of `op` decodes to, and that the two fields are
the whole word (spec/30_encoding.md R73 to R78).
-/

namespace Sys2Proof.Machine

/-- The `len` field of a command word built from its two fields (R73). -/
@[simp] theorem lenField_commandWord (op : BitVec 2) (len : Word) :
    lenField (commandWord op len) = len := by
  rw [lenField, commandWord, BitVec.extractLsb'_append_eq_right]

/-- The two fields make the whole word (R73). -/
@[simp] theorem commandWord_opField_lenField (w : Command) :
    commandWord (opField w) (lenField w) = w := by
  have hjoin : w.extractLsb' 64 2 ++ w.extractLsb' 0 64 = w.extractLsb' 0 (2 + 64) :=
    BitVec.extractLsb'_append_extractLsb'_eq_extractLsb' rfl
  exact hjoin.trans BitVec.extractLsb'_eq_self

@[simp] theorem decode_commandWord_rsvd (len : Word) (beats : List Byte) :
    decode (commandWord 0b00#2 len) beats = ⟨.rsvd, beats, 0⟩ := by
  simp [decode]

@[simp] theorem decode_commandWord_init (len : Word) (beats : List Byte) :
    decode (commandWord 0b01#2 len) beats = ⟨.init, beats, 0⟩ := by
  simp [decode]

@[simp] theorem decode_commandWord_update (len : Word) (beats : List Byte) :
    decode (commandWord 0b10#2 len) beats
      = ⟨.update (beats.take len.toNat), beats.drop len.toNat,
          BitVec.ofNat 64 (len.toNat - beats.length)⟩ := by
  simp [decode]

@[simp] theorem decode_commandWord_finish (len : Word) (beats : List Byte) :
    decode (commandWord 0b11#2 len) beats = ⟨.finish, beats, 0⟩ := by
  simp [decode]

/-- An `UPDATE` offered with its whole payload takes exactly that payload (R74). -/
theorem decode_commandWord_update_append {payload : List Byte} (hlen : payload.length < 2 ^ 64)
    (rest : List Byte) :
    decode (commandWord 0b10#2 (BitVec.ofNat 64 payload.length)) (payload ++ rest)
      = ⟨.update payload, rest, 0⟩ := by
  have hfield : (BitVec.ofNat 64 payload.length).toNat = payload.length := by
    rw [BitVec.toNat_ofNat, Nat.mod_eq_of_lt hlen]
  simp [hfield]

/-- The count of missing bytes fits its 64 bits, so that nothing is owed only if nothing is missing. -/
theorem length_le_of_owed_eq_zero {len : Word} {n : Nat} (h : BitVec.ofNat 64 (len.toNat - n) = 0) :
    len.toNat ≤ n := by
  have hzero := congrArg BitVec.toNat h
  rw [BitVec.toNat_ofNat, Nat.mod_eq_of_lt (by omega)] at hzero
  exact Nat.sub_eq_zero_iff_le.mp hzero

/-- An `UPDATE` decoded with nothing owed has its `len` for the length of its payload. -/
theorem encode_update_take {len : Word} {beats : List Byte} (h : len.toNat ≤ beats.length) :
    encode (.update (beats.take len.toNat))
      = some (commandWord 0b10#2 len, beats.take len.toNat) := by
  rw [encode, List.length_take_of_le h, BitVec.ofNat_toNat, BitVec.setWidth_eq]

end Sys2Proof.Machine

open Sys2Proof Sys2Proof.Machine in
/-- Settles O1: one equation of the decoder per command that has an encoding; an `UPDATE` takes its own
beats because its length fits `len`. -/
theorem decodeInvertsEncode : Obligations.DecodeInvertsEncode := by
  unfold Obligations.DecodeInvertsEncode
  intro i w beats rest hwf henc
  cases i with
  | rsvd | init | finish =>
    obtain ⟨rfl, rfl⟩ := Prod.mk.inj (Option.some.inj henc)
    simp
  | update payload =>
    obtain ⟨rfl, rfl⟩ := Prod.mk.inj (Option.some.inj henc)
    exact decode_commandWord_update_append (of_decide_eq_true hwf) rest
  | compress => exact absurd henc (by simp [encode])

open Sys2Proof Sys2Proof.Machine in
/-- Settles O2: a word is its two fields, so each value of `op` is one equation of the decoder read
backwards; an `UPDATE` that owes nothing was offered all its `len` beats. -/
theorem encodeInvertsDecode : Obligations.EncodeInvertsDecode := by
  unfold Obligations.EncodeInvertsDecode
  intro w beats hcanonical howed
  obtain ⟨op, len, rfl⟩ : ∃ op len, w = commandWord op len :=
    ⟨_, _, (commandWord_opField_lenField w).symm⟩
  simp only [opField_commandWord, lenField_commandWord] at hcanonical ⊢
  obtain hop | hop | hop | hop := opField_cases (commandWord op len) <;>
    rw [opField_commandWord] at hop <;> subst hop
  case inr.inr.inl =>
    rw [decode_commandWord_update] at howed ⊢
    exact encode_update_take (length_le_of_owed_eq_zero howed)
  all_goals
    obtain rfl := hcanonical (by decide)
    simp [encode]

open Sys2Proof Sys2Proof.Machine in
/-- Settles O3: one equation of the decoder per value of `op`. -/
theorem opFieldAloneSelectsTheCommand : Obligations.OpFieldAloneSelectsTheCommand := by
  unfold Obligations.OpFieldAloneSelectsTheCommand
  refine ⟨fun len beats => ⟨?rsvd, ?init, ?update, ?finish⟩, commandWord_opField_lenField,
    fun w beats => ?noCompress, rfl⟩
  case rsvd => exact decode_commandWord_rsvd len beats
  case init => exact decode_commandWord_init len beats
  case update => exact decode_commandWord_update len beats
  case finish => exact decode_commandWord_finish len beats
  case noCompress => obtain hop | hop | hop | hop := opField_cases w <;> simp [decode, hop]

open Sys2Proof Sys2Proof.Machine in
/-- Settles O4: each of the five numbers is a value of `op` followed by a `len`. -/
theorem sampleCommandWordsDecode : Obligations.SampleCommandWordsDecode := by
  unfold Obligations.SampleCommandWordsDecode
  refine ⟨?rsvd, ?init, ?initWithLen, ?update, ?finish⟩
  case rsvd => exact decode_commandWord_rsvd 0 []
  case init => exact decode_commandWord_init 0 []
  case initWithLen => exact decode_commandWord_init 0xDEADBEEF []
  case update => exact decode_commandWord_update 3 [0x61, 0x62, 0x63]
  case finish => exact decode_commandWord_finish 0 []

end

section
/-!
`UPDATE` in closed form (spec/42_update.md): the state words, the live bytes and the buffer after a
payload, its partitions, its beats (R138), and the block-wise absorption (R139).
-/

namespace Sys2Proof.Machine

theorem State.absorb_h (s : State) (p : List Byte) :
    (s.absorb p).h = compressBlocks s.h (blocksOf (s.live ++ p)) := by
  rw [State.absorb_eq]
  exact State.putBytes_h p s.fill s s.fill_lt

theorem State.absorb_buf (s : State) (p : List Byte) :
    (s.absorb p).buf = (State.putBytes p s.fill s).buf := by
  rw [State.absorb_eq]

theorem State.absorb_memRead1 (s : State) (p : List Byte) (a : Nat) :
    (s.absorb p).memRead1 a = (State.putBytes p s.fill s).memRead1 a :=
  State.memRead1_congr (s.absorb_buf p) a

theorem State.absorb_live (s : State) (p : List Byte) :
    (s.absorb p).live = (s.live ++ p).drop (128 * ((s.fill + p.length) / 128)) := by
  rw [State.live_eq_front, State.absorb_fill,
    State.front_congr fun i _ => s.absorb_memRead1 p i, State.putBytes_front p s.fill s s.fill_lt,
    State.live_eq_front]

/-- The counters are in range after any payload, since the sum is folded (R133). -/
theorem State.absorb_countersInRange (s : State) (p : List Byte) : (s.absorb p).CountersInRange := by
  rw [State.CountersInRange, State.absorb_totalBytes_toNat]
  exact Nat.mod_lt _ (by decide)

/-- A payload byte with fewer than 128 bytes behind it stays where it was written: the first 128 positions
from any one on are different. -/
theorem State.putBytes_read_first (b : Byte) (q : List Byte) (fill : Nat) (s : State) (hf : fill < 128)
    (hq : q.length < 128) : (State.putBytes (b :: q) fill s).memRead1 fill = b := by
  rw [State.putBytes_cons]
  split_ifs with hfull
  · rw [State.putBytes_read_other q 0 _ (by omega) fill (by intro j hj; omega),
      State.memRead1_compressBuf, State.memRead1_memWrite1, if_pos rfl]
  · rw [State.putBytes_read_other q (fill + 1) _ (by omega) fill (by intro j hj; omega),
      State.memRead1_memWrite1, if_pos rfl]

/-- Byte `j` of a payload, if among the last 128, is at its address afterwards. -/
theorem State.absorb_memRead1_written (s : State) {p : List Byte} {j : Nat} (hj : j < p.length)
    (hlast : p.length ≤ j + 128) : (s.absorb p).memRead1 ((s.fill + j) % 128) = p.getD j 0 := by
  have hsplit : p = p.take j ++ p[j] :: p.drop (j + 1) := by
    rw [← List.drop_eq_getElem_cons hj, List.take_append_drop]
  have hput := State.putBytes_append (p.take j) (p[j] :: p.drop (j + 1)) s.fill s s.fill_lt
  rw [← hsplit, List.length_take_of_le hj.le] at hput
  rw [State.absorb_memRead1, hput, List.getD_eq_getElem _ _ hj]
  exact State.putBytes_read_first _ _ _ _ (Nat.mod_lt _ (by decide)) (by rw [List.length_drop]; omega)

/-- Chunks absorbed one by one are absorbed as one byte string. -/
theorem runChunks_active (chunks : List (List Byte)) {s : State} (hactive : s.phase = .active)
    (hrange : s.CountersInRange) : runChunks chunks s = .next (s.absorb chunks.flatten) := by
  induction chunks generalizing s with
  | nil => rw [runChunks, List.flatten_nil, State.absorb_nil hrange]
  | cons c cs ih =>
    rw [runChunks, exec_update_active c hactive]
    exact (ih (by rwa [State.absorb_phase]) (s.absorb_countersInRange c)).trans
      (by rw [State.absorb_absorb, List.flatten_cons])

/-! ## One beat -/

/-- With (I-a), the count of one byte is the advance of both counters by one. -/
theorem State.countByte_eq_advanceCounters {s : State} (h : s.CountersInRange) :
    s.countByte = s.advanceCounters 1 := by
  have hedge : s.totalBytes = 0x1FFFFFFFFFFFFFFF ↔ s.totalBytes.toNat = 0x1FFFFFFFFFFFFFFF :=
    BitVec.toNat_inj.symm
  have hhigh := s.highBitCount.isLt
  have htotal : s.countByte.totalBytes = totalAfter s.totalBytes 1 := by
    apply BitVec.eq_of_toNat_eq
    rw [State.countByte_totalBytes, totalAfter_toNat]
    split_ifs with h1 <;> rw [hedge] at h1
    · rw [h1]; rfl
    · rw [BitVec.toNat_add, show (1 : Word).toNat = 1 from rfl]; omega
  have hhigh : s.countByte.highBitCount = highAfter s.totalBytes s.highBitCount 1 := by
    apply BitVec.eq_of_toNat_eq
    rw [State.countByte_highBitCount, highAfter_toNat]
    split_ifs with h1 <;> rw [hedge] at h1
    · rw [h1, BitVec.toNat_add]; rfl
    · omega
  rw [State.advanceCounters, ← htotal, ← hhigh]
  rfl

/-- One byte absorbed: counted, written, and compressed when it filled the buffer (R134). -/
theorem State.absorb_singleton (s : State) (b : Byte) :
    s.absorb [b]
      = if s.fill + 1 = 128 then ((s.advanceCounters 1).memWrite1 s.fill b).compressBuf
        else (s.advanceCounters 1).memWrite1 s.fill b := by
  rw [State.absorb, State.putBytes_cons]
  rfl

/-- R138: a beat is an `UPDATE` of its one byte. -/
theorem State.beat_eq_absorb {s : State} (h : s.CountersInRange) (b : Byte) :
    s.beat b = s.absorb [b] := by
  have hcount : (s.memWrite1 s.fill b).countByte = (s.advanceCounters 1).memWrite1 s.fill b :=
    State.countByte_eq_advanceCounters (s := s.memWrite1 s.fill b) h
  have hfill : ((s.advanceCounters 1).memWrite1 s.fill b).fill = (s.fill + 1) % 128 :=
    s.advanceCounters_fill 1
  have hlt := s.fill_lt
  rw [State.beat, hcount, State.absorb_singleton, State.compressWhenFilled, hfill]
  split_ifs
  · rfl
  · omega
  · omega
  · rfl

/-- The beats of a payload in order are its `UPDATE`. -/
theorem State.foldl_beat {s : State} (h : s.CountersInRange) (p : List Byte) :
    p.foldl State.beat s = s.absorb p := by
  induction p generalizing s with
  | nil => exact (State.absorb_nil h).symm
  | cons b p ih =>
    rw [List.foldl_cons, State.beat_eq_absorb h, ih (s.absorb_countersInRange [b]),
      State.absorb_absorb, List.singleton_append]

/-! ## Block-wise absorption -/

theorem State.absorbBlockwise_totalBytes (s : State) (p : List Byte) :
    (s.absorbBlockwise p).totalBytes = totalAfter s.totalBytes p.length := by
  simp only [State.absorbBlockwise]
  split_ifs <;> rfl

theorem State.absorbBlockwise_highBitCount (s : State) (p : List Byte) :
    (s.absorbBlockwise p).highBitCount = highAfter s.totalBytes s.highBitCount p.length := by
  simp only [State.absorbBlockwise]
  split_ifs <;> rfl

theorem State.absorbBlockwise_phase (s : State) (p : List Byte) :
    (s.absorbBlockwise p).phase = s.phase := by
  simp only [State.absorbBlockwise]
  split_ifs <;> rfl

/-- `fill` is a function of `total_bytes`, which both forms of `UPDATE` leave equal. -/
theorem State.absorbBlockwise_fill (s : State) (p : List Byte) :
    (s.absorbBlockwise p).fill = (s.fill + p.length) % 128 := by
  rw [← State.absorb_fill, State.fill, State.fill, State.absorbBlockwise_totalBytes,
    State.absorb_totalBytes]

/-- A payload that does not fill the buffer is copied behind the live bytes. -/
theorem State.absorbBlockwise_of_lt {s : State} {p : List Byte} (h : s.fill + p.length < 128) :
    s.absorbBlockwise p
      = { s.advanceCounters p.length with buf := Mem.writeList s.buf s.fill p } := by
  simp only [State.absorbBlockwise, if_pos h]

/-- From an empty buffer whole blocks come straight from the payload. -/
theorem State.absorbBlockwise_of_fill_zero {s : State} {p : List Byte} (h0 : s.fill = 0)
    (h : 128 ≤ s.fill + p.length) :
    s.absorbBlockwise p
      = { s.advanceCounters p.length with
          h := compressBlocks s.h (blocksOf p)
          buf := Mem.writeList s.buf 0 (p.drop (128 * (p.length / 128))) } := by
  simp only [State.absorbBlockwise, if_neg (not_lt.mpr h), if_pos h0, topUp, afterTopUp]
  rfl

/-- A partly filled buffer is topped up and compressed first. -/
theorem State.absorbBlockwise_of_fill_ne_zero {s : State} {p : List Byte} (h0 : s.fill ≠ 0)
    (h : 128 ≤ s.fill + p.length) :
    s.absorbBlockwise p
      = { s.advanceCounters p.length with
          h := compressBlocks (compress s.h (blockAt (s.live ++ p.take (128 - s.fill)) 0))
            (blocksOf (p.drop (128 - s.fill)))
          buf := Mem.writeList (Mem.writeList s.buf s.fill (p.take (128 - s.fill))) 0
            ((p.drop (128 - s.fill)).drop (128 * ((p.drop (128 - s.fill)).length / 128))) } := by
  have hf := s.fill_lt
  have htop : (p.take (128 - s.fill)).length = 128 - s.fill := List.length_take_of_le (by omega)
  have hblock (t : State) (ht : t.buf = Mem.writeList s.buf s.fill (p.take (128 - s.fill))) :
      t.block = blockAt (s.live ++ p.take (128 - s.fill)) 0 := by
    have hfront := State.front_of_buf_eq_writeList ht
    rw [htop, Nat.add_sub_cancel' hf.le] at hfront
    rw [State.block_eq_blockAt_front, hfront, State.live_eq_front]
  simp only [State.absorbBlockwise, if_neg (not_lt.mpr h), if_neg h0, topUp, afterTopUp,
    State.compressBuf_h, State.compressBuf_buf]
  rw [hblock _ rfl]
  rfl

/-- Both forms of `UPDATE` compress the same blocks (R139). -/
theorem State.absorbBlockwise_h (s : State) (p : List Byte) :
    (s.absorbBlockwise p).h = (s.absorb p).h := by
  have hf := s.fill_lt
  have hlive := s.live_length
  rw [State.absorb_h]
  obtain hlt | hge := lt_or_ge (s.fill + p.length) 128
  · rw [State.absorbBlockwise_of_lt hlt, blocksOf_short (by rw [List.length_append]; omega)]
    rfl
  · by_cases h0 : s.fill = 0
    · rw [State.absorbBlockwise_of_fill_zero h0 hge, List.length_eq_zero_iff.mp (hlive.trans h0),
        List.nil_append]
    · have hblock : (s.live ++ p.take (128 - s.fill)).length = 128 := by
        rw [List.length_append, List.length_take_of_le (by omega)]; omega
      have hcut : s.live ++ p = (s.live ++ p.take (128 - s.fill)) ++ p.drop (128 - s.fill) := by
        rw [List.append_assoc, List.take_append_drop]
      rw [State.absorbBlockwise_of_fill_ne_zero h0 hge, hcut, blocksOf_cons _ hblock,
        compressBlocks_cons]

/-- Both forms of `UPDATE` leave the same live bytes (R139). -/
theorem State.absorbBlockwise_live (s : State) (p : List Byte) :
    (s.absorbBlockwise p).live = (s.absorb p).live := by
  have hf := s.fill_lt
  have hlive := s.live_length
  rw [State.absorb_live, State.live_eq_front (s.absorbBlockwise p), State.absorbBlockwise_fill]
  obtain hlt | hge := lt_or_ge (s.fill + p.length) 128
  · rw [State.absorbBlockwise_of_lt hlt, Nat.mod_eq_of_lt hlt, Nat.div_eq_of_lt hlt]
    exact State.front_of_buf_eq_writeList rfl
  · by_cases h0 : s.fill = 0
    · have hlen : (s.fill + p.length) % 128 = 0 + (p.drop (128 * (p.length / 128))).length := by
        rw [List.length_drop]; omega
      rw [State.absorbBlockwise_of_fill_zero h0 hge, List.length_eq_zero_iff.mp (hlive.trans h0), hlen,
        h0, Nat.zero_add p.length]
      exact State.front_of_buf_eq_writeList rfl
    · rw [State.absorbBlockwise_of_fill_ne_zero h0 hge]
      set rest := p.drop (128 - s.fill) with hrest
      have hrestlen : rest.length + 128 = s.fill + p.length := by rw [hrest, List.length_drop]; omega
      have hlen : (s.fill + p.length) % 128 = 0 + (rest.drop (128 * (rest.length / 128))).length := by
        rw [List.length_drop]; omega
      have hdrop : 128 * ((s.fill + p.length) / 128)
          = s.live.length + ((128 - s.fill) + 128 * (rest.length / 128)) := by omega
      rw [hlen, hdrop, List.drop_length_add_append, ← List.drop_drop]
      exact State.front_of_buf_eq_writeList
        (s := { s with buf := Mem.writeList s.buf s.fill (p.take (128 - s.fill)) }) rfl

end Sys2Proof.Machine

open Sys2Proof.Machine in
/-- Settles O11: an ACTIVE `UPDATE` absorbs its payload, and each part of the state after that is known. -/
theorem updateClosedForm : Obligations.UpdateClosedForm := by
  unfold Obligations.UpdateClosedForm
  intro payload s hactive
  refine ⟨s.absorb payload, exec_update_active payload hactive, s.absorb_h payload, fun hshort => ?short,
    s.absorb_fill payload, s.absorb_live payload, s.absorb_phase payload, s.absorb_owed payload,
    s.absorb_dout payload, s.absorb_pending payload, s.absorb_digests payload⟩
  case short =>
    rw [State.absorb_h, blocksOf_short (by rwa [List.length_append, State.live_length]),
      compressBlocks_nil]

open Sys2Proof.Machine in
/-- Settles O12: what absorbing leaves alone, and that a byte with fewer than 128 behind it stays. -/
theorem updateWritesOnlyItsPositions : Obligations.UpdateWritesOnlyItsPositions := by
  unfold Obligations.UpdateWritesOnlyItsPositions
  intro payload s hactive
  refine ⟨s.absorb payload, exec_update_active payload hactive, fun a ha => ?kept,
    fun j hj hlast => ?written⟩
  case kept =>
    rw [State.absorb_memRead1]
    exact State.putBytes_read_other payload s.fill s s.fill_lt a ha
  case written => exact s.absorb_memRead1_written hj hlast

open Sys2Proof.Machine in
/-- Settles O14: the chunks and their concatenation are absorbed to the same state. -/
theorem updateIsStreaming : Obligations.UpdateIsStreaming := by
  unfold Obligations.UpdateIsStreaming
  intro chunks s hactive hrange
  rw [runChunks_active chunks hactive hrange, exec_update_active _ hactive]

open Sys2Proof.Machine in
/-- Settles O15: an `UPDATE` absorbs its payload, and so do its beats. -/
theorem updateIsItsBeats : Obligations.UpdateIsItsBeats := by
  unfold Obligations.UpdateIsItsBeats
  intro payload s hactive hrange
  rw [exec_update_active payload hactive, State.foldl_beat hrange]

open Sys2Proof.Machine in
/-- Settles O16: the two forms agree on `H` and on the live bytes; the counters and `phase` are the same
functions of the old ones. -/
theorem blockwiseAbsorptionAgrees : Obligations.BlockwiseAbsorptionAgrees := by
  unfold Obligations.BlockwiseAbsorptionAgrees
  intro payload s hactive
  refine ⟨s.absorb payload, exec_update_active payload hactive, s.absorbBlockwise_h payload, ?total,
    ?high, ?phase, s.absorbBlockwise_live payload⟩
  case total => rw [State.absorbBlockwise_totalBytes, State.absorb_totalBytes]
  case high => rw [State.absorbBlockwise_highBitCount, State.absorb_highBitCount]
  case phase => rw [State.absorbBlockwise_phase, State.absorb_phase]

end

section
/-!
The padded tail in both of its sizes, `FINISH` as the compression of its blocks, and the digest as bytes
(spec/43_finish.md R152 to R160).
-/

namespace Sys2Proof.Machine

/-! ## The padded tail -/

/-- From 112 bytes on, the zeros after the marker fill their block and 112 bytes of a second one. -/
theorem zeroPadding_of_ge {n : Nat} (h : 112 ≤ n) (hn : n < 128) :
    zeroPadding n = List.replicate (128 - (n + 1)) 0x00 ++ List.replicate 112 0x00 := by
  rw [zeroPadding, List.replicate_append_replicate,
    show ((111 - (n : Int)) % 128).toNat = 128 - (n + 1) + 112 by omega]

/-- The number of zeros depends on the place in the block only. -/
theorem zeroPadding_mod (n : Nat) : zeroPadding (n % 128) = zeroPadding n := by
  rw [zeroPadding, zeroPadding, show ((111 - ((n % 128 : Nat) : Int)) % 128).toNat
    = ((111 - (n : Int)) % 128).toNat by omega]

/-- The first of two final blocks: the live bytes, the marker and zeros (R154). -/
def State.markedBlock (s : State) : List Byte :=
  s.live ++ [0x80] ++ List.replicate (128 - (s.fill + 1)) 0x00

/-- The second of two final blocks: zeros and the length field (R155, R156). -/
def State.lengthBlock (s : State) : List Byte :=
  List.replicate 112 0x00 ++ bytesBE64 s.highBitCount ++ bytesBE64 (bitlenLo s.totalBytes)

theorem State.length_markedBlock (s : State) : s.markedBlock.length = 128 := by
  have hf := s.fill_lt
  simp only [State.markedBlock, List.length_append, State.live_length, List.length_singleton,
    List.length_replicate]
  omega

theorem State.length_lengthBlock (s : State) : s.lengthBlock.length = 128 := by
  simp [State.lengthBlock]

theorem State.paddedTail_of_le_fill {s : State} (hfill : 112 ≤ s.fill) :
    s.paddedTail = s.markedBlock ++ s.lengthBlock := by
  simp only [State.paddedTail, State.markedBlock, State.lengthBlock,
    zeroPadding_of_ge hfill s.fill_lt, List.append_assoc]

theorem State.length_paddedTail_of_fill_le {s : State} (hfill : s.fill ≤ 111) :
    s.paddedTail.length = 128 := by
  rw [← State.front_padTail_of_fill_le hfill, State.front_length]

theorem State.length_paddedTail_of_le_fill {s : State} (hfill : 112 ≤ s.fill) :
    s.paddedTail.length = 256 := by
  rw [State.paddedTail_of_le_fill hfill, List.length_append, State.length_markedBlock,
    State.length_lengthBlock]

/-- With fewer than 16 bytes free behind the marker an extra block is compressed first (R154, R155). -/
theorem State.padTail_of_le_fill {s : State} (hfill : 112 ≤ s.fill) :
    s.padTail
      = (((((s.memWrite1 s.fill 0x80).zeroFrom (s.fill + 1) 128).compressBuf.zeroFrom 0 112).memWrite8
          112 s.highBitCount).memWrite8 120 (bitlenLo s.totalBytes)) := by
  have hfree : 128 - (s.fill + 1) < 16 := by omega
  simp only [State.padTail, if_pos hfree]

/-- The extra block is compressed before the final one is written. -/
theorem State.padTail_h_of_le_fill {s : State} (hfill : 112 ≤ s.fill) :
    s.padTail.h = compress s.h (blockAt s.markedBlock 0) := by
  have hfront : ((s.memWrite1 s.fill 0x80).zeroFrom (s.fill + 1) 128).front 128 = s.markedBlock := by
    rw [State.front_zeroFrom _ s.fill_lt, State.front_memWrite1, State.markedBlock, State.live_eq_front]
  rw [State.padTail_of_le_fill hfill, State.memWrite8_h, State.memWrite8_h, State.zeroFrom_h,
    State.compressBuf_h, State.block_eq_blockAt_front, hfront]
  rfl

/-- After an extra block `BUF` holds zeros and the length field. -/
theorem State.front_padTail_of_le_fill {s : State} (hfill : 112 ≤ s.fill) :
    s.padTail.front 128 = s.lengthBlock := by
  rw [State.padTail_of_le_fill hfill, State.front_memWrite8 _ 120, State.front_memWrite8 _ 112,
    State.front_zeroFrom _ (Nat.zero_le 112), State.front_zero, List.nil_append, State.lengthBlock]

/-- The final state words are `H` folded over the blocks of the padded tail (R160). -/
theorem State.finalize_h (s : State) :
    s.finalize.h = compressBlocks s.h (blocksOf s.paddedTail) := by
  obtain hfill | hfill : s.fill ≤ 111 ∨ 112 ≤ s.fill := by omega
  · rw [State.finalize_h_of_fill_le hfill,
      blocksOf_single (State.length_paddedTail_of_fill_le hfill), compressBlocks_cons,
      compressBlocks_nil]
  · rw [State.paddedTail_of_le_fill hfill, blocksOf_cons _ s.length_markedBlock,
      blocksOf_single s.length_lengthBlock, compressBlocks_cons, compressBlocks_cons,
      compressBlocks_nil, State.finalize, State.compressBuf_h, State.padTail_h_of_le_fill hfill,
      State.block_eq_blockAt_front, State.front_padTail_of_le_fill hfill]

/-- `FINISH` inside the contract, with its digest in closed form. -/
theorem exec_finish_paddedTail {s : State} (h : s.phase = .active) :
    exec .finish s
      = .next { s.wipe with
          dout := some (digestWord (compressBlocks s.h (blocksOf s.paddedTail))) } := by
  rw [exec_finish_active h, State.finalize_h]

/-- The padded tail is made of the live bytes and the counters. -/
theorem State.paddedTail_congr {s t : State} (hlive : s.live = t.live)
    (htotal : s.totalBytes = t.totalBytes) (hhigh : s.highBitCount = t.highBitCount) :
    s.paddedTail = t.paddedTail := by
  simp only [State.paddedTail, State.fill, hlive, htotal, hhigh]

/-! ## The length field -/

/-- With (I-a) the shift loses no bit (R152). -/
theorem toNat_bitlenLo {total : Word} (h : total.toNat < 2 ^ 61) :
    (bitlenLo total).toNat = 8 * total.toNat := by
  rw [bitlenLo, BitVec.toNat_shiftLeft, Nat.shiftLeft_eq]
  omega

/-- The two halves of the length field are eight times the byte count (R152). -/
theorem State.bitCount_eq {s : State} (h : s.CountersInRange) :
    s.highBitCount.toNat * 2 ^ 64 + (bitlenLo s.totalBytes).toNat = 8 * s.byteCount := by
  rw [toNat_bitlenLo h, State.byteCount]
  omega

/-- The length field of a context is the 16-byte form of its bit count. -/
theorem State.bytesBE128_byteCount {s : State} (h : s.CountersInRange) :
    bytesBE128 (8 * s.byteCount)
      = bytesBE64 s.highBitCount ++ bytesBE64 (bitlenLo s.totalBytes) := by
  have hcount := State.bitCount_eq h
  have hlow := (bitlenLo s.totalBytes).isLt
  have hhigh : BitVec.ofNat 64 (8 * s.byteCount / 2 ^ 64) = s.highBitCount :=
    BitVec.eq_of_toNat_eq (by rw [BitVec.toNat_ofNat]; omega)
  have hlo : BitVec.ofNat 64 (8 * s.byteCount) = bitlenLo s.totalBytes :=
    BitVec.eq_of_toNat_eq (by rw [BitVec.toNat_ofNat]; omega)
  rw [bytesBE128, hhigh, hlo]

/-! ## The digest -/

/-- Byte `j` of `BE64` is that many bytes from the top of the word. -/
theorem getD_bytesBE64 (w : Word) (j : Fin 8) :
    (bytesBE64 w).getD j.val 0 = w.extractLsb' (56 - 8 * j.val) 8 := by
  fin_cases j <;> rfl

/-- A byte of the last word of a bit string. -/
theorem extractLsb'_append_word_of_le {n : Nat} (x : BitVec n) (w : Word) {i : Nat} (hi : i ≤ 56) :
    (x ++ w).extractLsb' i 8 = w.extractLsb' i 8 :=
  BitVec.extractLsb'_append_eq_of_add_le (by omega)

/-- A byte further up is found by passing over the last word. -/
theorem extractLsb'_append_word_add {n : Nat} (x : BitVec n) (w : Word) (i : Nat) :
    (x ++ w).extractLsb' (i + 64) 8 = x.extractLsb' i 8 := by
  rw [BitVec.extractLsb'_append_eq_of_le (Nat.le_add_left 64 i), Nat.add_sub_cancel]

/-- The bytes of `H[k]` stand below the `k` words before it in the digest word (R76). -/
theorem extractLsb'_digestWord (h : StateWords) (k : Fin 4) {i : Nat} (hi : i ≤ 56) :
    (digestWord h).extractLsb' (i + 64 * (3 - k.val)) 8 = h[k.val].extractLsb' i 8 := by
  fin_cases k
  · exact (extractLsb'_append_word_add _ h[3] (i + 64 + 64)).trans
      ((extractLsb'_append_word_add _ h[2] (i + 64)).trans (extractLsb'_append_word_add h[0] h[1] i))
  · exact (extractLsb'_append_word_add _ h[3] (i + 64)).trans
      ((extractLsb'_append_word_add _ h[2] i).trans (extractLsb'_append_word_of_le h[0] h[1] hi))
  · exact (extractLsb'_append_word_add _ h[3] i).trans (extractLsb'_append_word_of_le _ h[2] hi)
  · exact extractLsb'_append_word_of_le _ h[3] hi

/-- Byte `8k + j` of the digest is byte `j` of its word `k`. -/
theorem getD_digestBytes (h : StateWords) (k : Fin 4) (j : Fin 8) :
    (digestBytes h).getD (8 * k.val + j.val) 0 = (bytesBE64 h[k.val]).getD j.val 0 := by
  fin_cases k <;> fin_cases j <;> rfl

end Sys2Proof.Machine

open Sys2Proof.Machine in
/-- Settles O18: the final state words in closed form, and the wipe of everything else in the context. -/
theorem finishCompressesThePaddedTail : Obligations.FinishCompressesThePaddedTail := by
  unfold Obligations.FinishCompressesThePaddedTail
  intro s hactive
  rw [exec_finish_paddedTail hactive]
  rfl

open Sys2Proof.Machine in
/-- Settles O19: the length of the padded tail on the two sides of 111 and 112, in blocks of 128. -/
theorem paddedTailIsOneOrTwoBlocks : Obligations.PaddedTailIsOneOrTwoBlocks := by
  unfold Obligations.PaddedTailIsOneOrTwoBlocks
  refine fun s => ⟨fun hfill => ?one, fun hfill => ?two⟩
  case one =>
    have hlen := State.length_paddedTail_of_fill_le hfill
    exact ⟨by rw [blocksOf_length, hlen], hlen⟩
  case two =>
    have hlen := State.length_paddedTail_of_le_fill hfill
    exact ⟨by rw [blocksOf_length, hlen], hlen⟩

open Sys2Proof.Machine in
/-- Settles O20: below 2^61 the shift loses no bit. -/
theorem lengthFieldCountsTheBits : Obligations.LengthFieldCountsTheBits := by
  unfold Obligations.LengthFieldCountsTheBits
  exact fun s hrange => ⟨toNat_bitlenLo hrange, State.bitCount_eq hrange⟩

open Sys2Proof.Machine in
/-- Settles O17: `FINISH` faults when IDLE, and the context `INIT` leaves has the final state words of the
empty message. -/
theorem finishNeedsTheActivePhase : Obligations.FinishNeedsTheActivePhase := by
  unfold Obligations.FinishNeedsTheActivePhase
  refine fun s => ⟨exec_finish_idle, _, _, exec_init s, exec_finish_active rfl, ?digest⟩
  rw [State.finalize_h_of_fresh rfl rfl rfl]

open Sys2Proof.Machine in
/-- Settles O22: a digest is made of `H`, the live bytes and the counters, and each of these after an
`UPDATE` is made of the same three before it. -/
theorem staleBytesReachNoDigest : Obligations.StaleBytesReachNoDigest := by
  unfold Obligations.StaleBytesReachNoDigest
  intro s s' payload hactive hactive' hh htotal hhigh hlive
  have hfill : s.fill = s'.fill := by rw [State.fill, State.fill, htotal]
  have hh' : (s.absorb payload).h = (s'.absorb payload).h := by
    rw [State.absorb_h, State.absorb_h, hh, hlive]
  have htail : (s.absorb payload).paddedTail = (s'.absorb payload).paddedTail := by
    apply State.paddedTail_congr
    · rw [State.absorb_live, State.absorb_live, hlive, hfill]
    · rw [State.absorb_totalBytes, State.absorb_totalBytes, htotal]
    · rw [State.absorb_highBitCount, State.absorb_highBitCount, htotal, hhigh]
  refine ⟨_, _, _, _, exec_update_active payload hactive, exec_update_active payload hactive',
    exec_finish_paddedTail (by rwa [State.absorb_phase]),
    exec_finish_paddedTail (by rwa [State.absorb_phase]), ?digest⟩
  rw [hh', htail]

open Sys2Proof.Machine in
/-- Settles O23: byte `j` of `BE64` is bits 63−8j : 56−8j of its word, in the digest word as in the
digest's bytes. -/
theorem digestIsFourWordsBigEndian : Obligations.DigestIsFourWordsBigEndian := by
  unfold Obligations.DigestIsFourWordsBigEndian
  refine fun h => ⟨digestBytes_length h, fun k j => ⟨?word, getD_digestBytes h k j⟩⟩
  case word =>
    rw [getD_bytesBE64, ← extractLsb'_digestWord h k (by omega),
      show 248 - 8 * (8 * k.val + j.val) = 56 - 8 * j.val + 64 * (3 - k.val) by omega]

open Sys2Proof.Machine in
/-- Settles O24: the state `FINISH` leaves is the wiped one, whose context is zero. -/
theorem finishZeroesTheContext : Obligations.FinishZeroesTheContext := by
  unfold Obligations.FinishZeroesTheContext
  intro s hactive
  exact ⟨_, exec_finish_active hactive, State.ctxImage_of_contextZero ⟨rfl, rfl, rfl, rfl⟩, rfl, rfl,
    rfl⟩

end

section
/-!
The message a context holds: it starts empty at `INIT`, grows by every payload, and is what `FINISH`
digests (spec/10_state.md R29 (I-c), 43_finish.md R161).
-/

namespace Sys2Proof.Machine

/-- A context with the values `INIT` loads holds the empty message. -/
theorem State.holdsMessage_nil {s : State} (hh : s.h = iv) (htotal : s.totalBytes = 0)
    (hhigh : s.highBitCount = 0) : s.HoldsMessage [] := by
  have hfill : s.fill = 0 := by rw [State.fill, htotal]; rfl
  refine ⟨hh, ?live, ?count⟩
  case live => rw [State.live_eq_front, hfill]; rfl
  case count => rw [State.byteCount, hhigh, htotal]; rfl

theorem State.countersInRange_of_zero {s : State} (h : s.totalBytes = 0) : s.CountersInRange := by
  rw [State.CountersInRange, h]
  decide

/-- The unprocessed tail of a message after more bytes is that of its old tail after them. -/
theorem drop_blocks_append (m p : List Byte) :
    (m ++ p).drop (128 * ((m ++ p).length / 128))
      = (m.drop (128 * (m.length / 128)) ++ p).drop (128 * ((m.length % 128 + p.length) / 128)) := by
  have hcut : 128 * ((m ++ p).length / 128)
      = 128 * (m.length / 128) + 128 * ((m.length % 128 + p.length) / 128) := by
    rw [List.length_append]; omega
  rw [hcut, ← List.drop_drop, List.drop_append_of_le_length (by omega)]

/-- Absorbing a payload appends it to the message held: the complete blocks of the whole are those of the
old message and then those of its tail and the payload. -/
theorem State.HoldsMessage.absorb {s : State} {m : List Byte} (h : s.HoldsMessage m) (p : List Byte) :
    (s.absorb p).HoldsMessage (m ++ p) := by
  have hfill := State.fill_of_holdsMessage h
  obtain ⟨hh, hlive, hcount⟩ := h
  refine ⟨?blocks, ?tail, ?count⟩
  case blocks => rw [State.absorb_h, hh, hlive, blocksOf_append m, compressBlocks_append]
  case tail => rw [State.absorb_live, hlive, hfill, drop_blocks_append]
  case count => rw [State.absorb_byteCount, hcount, Nat.mod_add_mod, List.length_append]

/-- The padded tail of a context is the unprocessed tail of the message it holds, and its padding. -/
theorem State.HoldsMessage.paddedTail_eq {s : State} {m : List Byte} (h : s.HoldsMessage m)
    (hrange : s.CountersInRange) (hm : m.length < 2 ^ 125) :
    s.paddedTail
      = m.drop (128 * (m.length / 128))
        ++ ([0x80] ++ zeroPadding m.length ++ bytesBE128 (8 * m.length)) := by
  have hfill := State.fill_of_holdsMessage h
  obtain ⟨-, hlive, hcount⟩ := h
  rw [Nat.mod_eq_of_lt hm] at hcount
  rw [State.paddedTail, hlive, hfill, zeroPadding_mod, ← hcount, State.bytesBE128_byteCount hrange]
  simp only [List.append_assoc]

/-- The final state words of a context that holds a message are those of the message (R161). -/
theorem State.HoldsMessage.finalize_h {s : State} {m : List Byte} (h : s.HoldsMessage m)
    (hrange : s.CountersInRange) (hm : m.length < 2 ^ 125) : s.finalize.h = messageWords m := by
  have hpad : padMessage m = m ++ ([0x80] ++ zeroPadding m.length ++ bytesBE128 (8 * m.length)) := by
    simp only [padMessage, List.append_assoc]
  rw [State.finalize_h, h.paddedTail_eq hrange hm, h.1, messageWords, hpad, blocksOf_append m,
    compressBlocks_append]

/-- `INIT` and one `UPDATE` per chunk absorb the chunks into a fresh context, which then holds them. -/
theorem runChunks_after_init (s : State) (chunks : List (List Byte)) :
    ∃ t u, exec .init s = .next t ∧ runChunks chunks t = .next u ∧
      u.HoldsMessage chunks.flatten ∧ u.CountersInRange ∧ u.phase = .active := by
  refine ⟨_, _, exec_init s, runChunks_active chunks rfl (State.countersInRange_of_zero rfl), ?holds,
    State.absorb_countersInRange _ _, State.absorb_phase _ _⟩
  exact (State.holdsMessage_nil rfl rfl rfl).absorb chunks.flatten

/-- The padded message has the length of the message, the marker, the zeros and 16 bytes. -/
theorem length_padMessage (m : List Byte) :
    (padMessage m).length = m.length + 1 + ((111 - (m.length : Int)) % 128).toNat + 16 := by
  simp only [padMessage, zeroPadding, bytesBE128, List.length_append, List.length_singleton,
    List.length_replicate, bytesBE64_length]

end Sys2Proof.Machine

open Sys2Proof.Machine in
/-- Settles O54: the values `INIT` loads are those of the empty message. -/
theorem initHoldsTheEmptyMessage : Obligations.InitHoldsTheEmptyMessage := by
  unfold Obligations.InitHoldsTheEmptyMessage
  intro s
  exact ⟨_, exec_init s, State.holdsMessage_nil rfl rfl rfl, State.countersInRange_of_zero rfl⟩

open Sys2Proof.Machine in
/-- Settles O55: an ACTIVE `UPDATE` absorbs its payload, which extends the message held. -/
theorem updateExtendsTheMessageHeld : Obligations.UpdateExtendsTheMessageHeld := by
  unfold Obligations.UpdateExtendsTheMessageHeld
  intro payload m s hactive hrange hm
  exact ⟨s.absorb payload, exec_update_active payload hactive, hm.absorb payload,
    (s.absorb_phase payload).trans hactive, s.absorb_countersInRange payload⟩

open Sys2Proof.Machine in
/-- Settles O56: the final state words of a context that holds a message are those of the message. -/
theorem finishDigestsTheMessageHeld : Obligations.FinishDigestsTheMessageHeld := by
  unfold Obligations.FinishDigestsTheMessageHeld
  intro m s hactive hrange hm hlen
  exact ⟨_, exec_finish_active hactive, by rw [hm.finalize_h hrange hlen]⟩

open Sys2Proof.Machine in
/-- Settles O27: after `INIT` and the chunks the context holds their concatenation, shorter than 2^125. -/
theorem activeContextHoldsTheMessage : Obligations.ActiveContextHoldsTheMessage := by
  unfold Obligations.ActiveContextHoldsTheMessage
  intro s chunks hlen
  obtain ⟨t, u, hinit, hrun, ⟨hh, hlive, hcount⟩, hrange, hactive⟩ := runChunks_after_init s chunks
  exact ⟨t, u, hinit, hrun, hh, hlive, hcount.trans (Nat.mod_eq_of_lt hlen), hrange, hactive⟩

open Sys2Proof.Machine in
/-- Settles O25: after `INIT` and the chunks the context holds their concatenation, which `FINISH`
digests. -/
theorem messageIsHashedEndToEnd : Obligations.MessageIsHashedEndToEnd := by
  unfold Obligations.MessageIsHashedEndToEnd
  intro s chunks hlen
  obtain ⟨t, u, hinit, hrun, hm, hrange, hactive⟩ := runChunks_after_init s chunks
  exact ⟨t, u, _, hinit, hrun, exec_finish_active hactive, by rw [hm.finalize_h hrange hlen]⟩

open Sys2Proof.Machine in
/-- Settles O26: the blocks of the padded message are its length over 128. -/
theorem messageCostsItsBlocks : Obligations.MessageCostsItsBlocks := by
  unfold Obligations.MessageCostsItsBlocks
  intro m
  rw [blocksOf_length, length_padMessage]
  omega

end

section
/-!
What every step keeps (spec/10_state.md R29): the counters in range, the canonical buffer and the consistent
sequencer; the zero context of the IDLE phase; the message an ACTIVE context holds. What a step can do to a
state that meets the invariant is said once, as an induction principle; each invariant is then its cases.
-/

namespace Sys2Proof.Machine

theorem Phase.idle_or_active (ph : Phase) : ph = .idle ∨ ph = .active := by
  cases ph <;> simp

/-- An `UPDATE` completes in the ACTIVE phase only, with its payload absorbed. -/
theorem exec_update_eq_next {s t : State} {p : List Byte} (h : exec (.update p) s = .next t) :
    s.phase = .active ∧ t = s.absorb p := by
  obtain hidle | hactive := s.phase.idle_or_active
  · rw [exec_update_idle p hidle] at h
    cases h
  · rw [exec_update_active p hactive] at h
    cases h
    exact ⟨hactive, rfl⟩

/-- A `FINISH` completes in the ACTIVE phase only, with the context wiped and its digest presented. -/
theorem exec_finish_eq_next {s t : State} (h : exec .finish s = .next t) :
    s.phase = .active ∧ t = { s.wipe with dout := some (digestWord s.finalize.h) } := by
  obtain hidle | hactive := s.phase.idle_or_active
  · rw [exec_finish_idle hidle] at h
    cases h
  · rw [exec_finish_active hactive] at h
    cases h
    exact ⟨hactive, rfl⟩

/-- Absorbing looks neither at what is owed nor at the host's offers. -/
theorem State.absorb_with_owed_pending (s : State) (owed : Word) (es : List HostEvent) (p : List Byte) :
    ({ s with owed := owed, pending := es } : State).absorb p
      = { s.absorb p with owed := owed, pending := es } := by
  obtain ⟨hh, hbuf⟩ := State.putBytes_congr p s.fill { s with owed := owed, pending := es } s rfl rfl
  rw [State.absorb_eq, State.absorb_eq s, ← hh, ← hbuf]
  rfl

/-- An accepted command completes in one of three ways: `INIT` and `FINISH` owe nothing, and a `FINISH` leaves
the reset state but for its digest and the host's side. -/
theorem exec_accepted_cases {s u : State} {i : Instr} {owed : Word} {es : List HostEvent}
    (howed : owed ≠ 0 → ∃ p, i = .update p) (hi : i ≠ .compress)
    (h : exec i { s with owed := owed, pending := es } = .next u) :
    u = { s with
      h := iv, totalBytes := 0, highBitCount := 0, phase := .active, owed := 0, pending := es } ∨
    (s.phase = .active ∧ ∃ p, u = { s.absorb p with owed := owed, pending := es }) ∨
    ∃ d, u = { State.reset with dout := some d, pending := es, digests := s.digests } := by
  have hzero (hu : ∀ p, i ≠ .update p) : owed = 0 := by
    by_contra hne
    obtain ⟨p, hp⟩ := howed hne
    exact hu p hp
  cases i with
  | rsvd => cases h
  | init =>
    rw [exec_init] at h
    cases h
    exact .inl (by rw [hzero (by simp)])
  | update p =>
    obtain ⟨hactive, rfl⟩ := exec_update_eq_next h
    exact .inr (.inl ⟨hactive, p, State.absorb_with_owed_pending s owed es p⟩)
  | finish =>
    obtain ⟨-, rfl⟩ := exec_finish_eq_next h
    exact .inr (.inr ⟨_, by rw [State.wipe_eq_reset (hzero (by simp))]⟩)
  | compress => exact absurd rfl hi

/-- A step that completes keeps `P` when the reset state has it whatever is on the digest output and on the
host's side, and `INIT`, the absorption of bytes and the transfer of a digest keep it. -/
theorem step_keeps {P : State → Prop} {s t : State} (hinv : s.Inv) (hs : P s)
    (hzero : ∀ d es ds, P { State.reset with dout := d, pending := es, digests := ds })
    (hinit : ∀ es, s.dout = none → P { s with
      h := iv, totalBytes := 0, highBitCount := 0, phase := .active, owed := 0, pending := es })
    (habsorb : ∀ p owed es, s.phase = .active → s.dout = none →
      P { s.absorb p with owed := owed, pending := es })
    (htake : ∀ (u : State) es ds, P u → P { u with dout := none, pending := es, digests := ds })
    (hstep : step s = .next t) : P t := by
  obtain ⟨hrange, -, howes, -⟩ := hinv
  cases step_form hstep with
  | wait => exact hs
  | reset es => exact hzero none es s.digests
  | beat b es hstage =>
    obtain ⟨hdout, howed⟩ := s.stage_eq_absorbing.mp hstage
    rw [State.beat_pending, State.beat_eq_absorb hrange]
    exact habsorb [b] (s.owed - 1) es (howes howed).1 hdout
  | take d es hdout => exact htake s es _ hs
  | run i owed es u hstage howed hi hexec =>
    obtain ⟨hdout, -⟩ := s.stage_eq_ready.mp hstage
    have hu : P u := by
      obtain rfl | ⟨hactive, p, rfl⟩ | ⟨d, rfl⟩ := exec_accepted_cases howed hi hexec
      · exact hinit es hdout
      · exact habsorb p owed es hactive hdout
      · exact hzero (some d) es s.digests
    obtain hsame | ⟨d, es', -, -, htaken⟩ := u.handOver_cases
    · rwa [hsame]
    · rw [htaken]
      exact htake u es' _ hu

/-- The reset state meets the invariant, whatever is on the digest output and on the host's side. -/
theorem State.inv_reset_with (d : Option Digest) (es : List HostEvent) (ds : List Digest) :
    ({ State.reset with dout := d, pending := es, digests := ds } : State).Inv :=
  ⟨State.countersInRange_of_zero rfl, Mem.wf_nil, fun h => absurd rfl h, fun _ => rfl⟩

end Sys2Proof.Machine

open Sys2Proof.Machine in
/-- Settles O42: the reset state has a zero context and is IDLE. -/
theorem resetMeetsTheInvariant : Obligations.ResetMeetsTheInvariant := by
  unfold Obligations.ResetMeetsTheInvariant
  exact ⟨State.inv_reset_with none [] [], fun _ => ⟨rfl, rfl, rfl, rfl⟩, nofun⟩

open Sys2Proof.Machine in
/-- Settles O43: bytes are absorbed in the ACTIVE phase only, with no digest held; they leave the counters
folded and the buffer canonical. -/
theorem stepKeepsTheInvariant : Obligations.StepKeepsTheInvariant := by
  unfold Obligations.StepKeepsTheInvariant
  intro s t hinv
  have ⟨_, hwf, _⟩ := hinv
  refine step_keeps hinv hinv State.inv_reset_with (fun es hdout => ?init)
    (fun p owed es hactive hdout => ?absorb) (fun u es ds hu => ?take)
  case init =>
    exact ⟨State.countersInRange_of_zero rfl, hwf, fun h => absurd rfl h, fun h => absurd hdout h⟩
  case absorb =>
    have hphase : (s.absorb p).phase = .active := (s.absorb_phase p).trans hactive
    have hout : (s.absorb p).dout = none := (s.absorb_dout p).trans hdout
    exact ⟨s.absorb_countersInRange p, s.absorb_wf p hwf, fun _ => ⟨hphase, hout⟩,
      fun h => absurd hout h⟩
  case take =>
    obtain ⟨hrange, hcanonical, howes, -⟩ := hu
    exact ⟨hrange, hcanonical, fun h => ⟨(howes h).1, rfl⟩, fun h => absurd rfl h⟩

open Sys2Proof.Machine in
/-- Settles O44: `INIT` and the absorption of bytes end in the ACTIVE phase, and the states IDLE is entered
in have a zero context. -/
theorem stepKeepsTheIdleContextZero : Obligations.StepKeepsTheIdleContextZero := by
  unfold Obligations.StepKeepsTheIdleContextZero
  intro s t hinv hidle
  refine step_keeps hinv hidle (fun d es ds _ => ⟨rfl, rfl, rfl, rfl⟩) (fun es _ => nofun)
    (fun p owed es hactive _ => ?absorb) (fun u es ds hu => hu)
  case absorb =>
    intro hphase
    have hphase' : s.phase = .idle := (s.absorb_phase p).symm.trans hphase
    rw [hactive] at hphase'
    cases hphase'

open Sys2Proof.Machine in
/-- Settles O57: `INIT` starts with the empty message, and the bytes absorbed extend the message held. -/
theorem stepKeepsAMessageHeld : Obligations.StepKeepsAMessageHeld := by
  unfold Obligations.StepKeepsAMessageHeld
  intro s t hinv hsome
  refine step_keeps hinv hsome (fun d es ds => nofun) (fun es _ _ => ?init)
    (fun p owed es hactive _ _ => ?absorb) (fun u es ds hu hactive => ?take)
  case init => exact ⟨[], State.holdsMessage_nil rfl rfl rfl⟩
  case absorb =>
    obtain ⟨m, hm⟩ := hsome hactive
    exact ⟨m ++ p, State.holdsMessage_congr rfl rfl rfl rfl (hm.absorb p)⟩
  case take =>
    obtain ⟨m, hm⟩ := hu hactive
    exact ⟨m, State.holdsMessage_congr rfl rfl rfl rfl hm⟩

end

section
/-!
What a command answers and what it writes: the faults of the contract (spec/60_exceptions.md R170 to R173),
the frame of each command and the context image (10_state.md R32, sections 7 and 10), and `INIT` twice
(40_init.md R91, R93).
-/

namespace Sys2Proof.Machine

/-- `INIT` of what `INIT` left is the same state (R93). -/
theorem exec_init_init {s t : State} (h : exec .init s = .next t) : exec .init t = .next t := by
  cases h
  rfl

@[simp] theorem State.length_bufBytes (s : State) : s.bufBytes.length = 128 := s.front_length 128

/-- The eight words `H` stand first in the context image, in order (R32). -/
theorem State.ctxImage_word (s : State) (k : Fin 8) :
    (s.ctxImage.drop (8 * k.val)).take 8 = bytesBE64 s.h[k.val] := by
  fin_cases k <;> rfl

/-- The state words as bytes, in order. -/
def State.wordBytes (s : State) : List Byte :=
  bytesBE64 s.h[0] ++ bytesBE64 s.h[1] ++ bytesBE64 s.h[2] ++ bytesBE64 s.h[3]
    ++ bytesBE64 s.h[4] ++ bytesBE64 s.h[5] ++ bytesBE64 s.h[6] ++ bytesBE64 s.h[7]

@[simp] theorem State.length_wordBytes (s : State) : s.wordBytes.length = 64 := rfl

/-- The image is the bytes of `H`, those of `BUF` and those of the counters (R32). -/
theorem State.ctxImage_eq (s : State) :
    s.ctxImage
      = s.wordBytes ++ s.bufBytes ++ bytesBE64 s.totalBytes ++ bytesBE64 s.highBitCount := rfl

end Sys2Proof.Machine

open Sys2Proof.Machine in
/-- Settles O7: the table of `IV` written out. -/
theorem initLoadsTheStandardWords : Obligations.InitLoadsTheStandardWords := by
  unfold Obligations.InitLoadsTheStandardWords
  exact fun s => ⟨_, exec_init s, rfl⟩

open Sys2Proof.Machine in
/-- Settles O8: `INIT` completes in every state, and once more with the same values. -/
theorem initIsIdempotent : Obligations.InitIsIdempotent := by
  unfold Obligations.InitIsIdempotent
  exact fun s => ⟨_, exec_init s, exec_init_init (exec_init s), rfl, rfl⟩

open Sys2Proof Sys2Proof.Machine in
/-- Settles O36: what each command answers in each phase. -/
theorem violationsAreExactlyTheContract : Obligations.ViolationsAreExactlyTheContract := by
  unfold Obligations.ViolationsAreExactlyTheContract
  refine ⟨fun i s f => ?faults, fun i s r => ?notRefused, rfl, rfl, rfl⟩
  case faults =>
    obtain hphase | hphase := s.phase.idle_or_active
    · cases i with
      | rsvd | init | compress => simp [eq_comm]
      | update p => simp [exec_update_idle p hphase, hphase, eq_comm]
      | finish => simp [exec_finish_idle hphase, hphase, eq_comm]
    · cases i with
      | rsvd | init | compress => simp [eq_comm]
      | update p => simp [exec_update_active p hphase, hphase]
      | finish => simp [exec_finish_active hphase, hphase]
  case notRefused =>
    obtain ⟨-, h⟩ | ⟨-, h⟩ | ⟨p, -, -, h⟩ | ⟨p, -, -, h⟩ | ⟨-, -, h⟩ | ⟨-, -, h⟩ | ⟨-, h⟩ :=
      exec_cases i s <;> rw [h] <;> nofun

open Sys2Proof Sys2Proof.Machine in
/-- Settles O37: the state each command completes in is known whole. -/
theorem commandsWriteOnlyTheirState : Obligations.CommandsWriteOnlyTheirState := by
  unfold Obligations.CommandsWriteOnlyTheirState
  intro i s t h
  cases i with
  | rsvd => cases h
  | init => cases h; simp
  | update p =>
    obtain ⟨-, rfl⟩ := exec_update_eq_next h
    simp
  | finish =>
    obtain ⟨-, rfl⟩ := exec_finish_eq_next h
    simp
  | compress => cases h; simp [State.compressBuf]

open Sys2Proof.Machine in
/-- Settles O53: the image is eight words, the 128 bytes of `BUF`, and two words. -/
theorem contextImageLayout : Obligations.ContextImageLayout := by
  unfold Obligations.ContextImageLayout
  intro s
  rw [State.ctxImage_eq]
  refine ⟨by simp, s.ctxImage_word, fun i hi => ?buffer, ?total, ?high⟩
  case buffer =>
    rw [List.append_assoc, List.append_assoc, List.getD_append_right _ _ _ _ (by simp),
      List.getD_append _ _ _ _ (by simp; omega), State.length_wordBytes, Nat.add_sub_cancel_left]
    exact s.front_getD hi 0
  case total =>
    rw [List.append_assoc, List.drop_left' (by simp), List.take_left' (by simp)]
  case high => rw [List.drop_left' (by simp)]

end

section
/-!
The circular schedule (spec/41_compress.md R112): before round `t` the 16 slots hold the last 16 words
computed so far, and the working variables are those of the 80-word schedule.
-/

namespace Sys2Proof.Machine

/-- The slots hold the words of `W` at the 16 places below `n`, each in its place modulo 16. -/
def SlotsHold (slots : Vector Word 16) (W : List Word) (n : Nat) : Prop :=
  ∀ i < n, n ≤ i + 16 → slots[i % 16] = W.getD i 0

/-- The word `t` computed from the slots is the one of the schedule: below 16 it stands in its slot, from 16 on
the four words of the recurrence do. -/
theorem circularWord_eq {slots : Vector Word 16} {W : List Word} {t : Nat} (hW : FollowsRecurrence W)
    (ht : t < W.length) (hslots : SlotsHold slots W (max t 16)) : circularWord slots t = W.getD t 0 := by
  rw [circularWord]
  split_ifs with h16
  · exact hslots t (by omega) (by omega)
  · rw [hW t (by omega) ht, hslots (t - 16) (by omega) (by omega), hslots (t - 15) (by omega) (by omega),
      hslots (t - 7) (by omega) (by omega), hslots (t - 2) (by omega) (by omega)]

/-- Writing word `t` into its slot replaces word `t - 16`, if that is there. -/
theorem SlotsHold.set {slots : Vector Word 16} {W : List Word} {t : Nat}
    (hslots : SlotsHold slots W (max t 16)) :
    SlotsHold (slots.set (t % 16) (W.getD t 0) (Nat.mod_lt _ (by decide))) W (max (t + 1) 16) := by
  intro i hi hlast
  rw [Vector.getElem_set]
  split_ifs with hplace
  · rw [show i = t by omega]
  · exact hslots i (by omega) (by omega)

/-- At the start the slots hold the words of the block. -/
theorem slotsHold_loadWord (block : Block) :
    SlotsHold (Vector.ofFn (loadWord block)) (schedule block) 16 := by
  intro i hi _
  rw [schedule_getD_of_lt block ⟨i, hi⟩, Vector.getElem_ofFn]
  simp only [Nat.mod_eq_of_lt hi]

/-- The slots and the working variables before round `t` of the circular form. -/
def circularBefore (hin : StateWords) (block : Block) (t : Nat) : Vector Word 16 × Working :=
  (kTable.zipIdx.take t).foldl circularRound (Vector.ofFn (loadWord block), startWorking hin)

theorem circularBefore_succ (hin : StateWords) (block : Block) {t : Nat} (ht : t < 80) :
    circularBefore hin block (t + 1)
      = circularRound (circularBefore hin block t) (kTable.getD t 0, t) := by
  have hlen : t < kTable.zipIdx.length := by rwa [List.length_zipIdx, length_kTable]
  have hk : t < kTable.length := by rwa [length_kTable]
  rw [circularBefore, ← List.take_concat_get' _ t hlen, List.foldl_concat, List.getElem_zipIdx,
    List.getD_eq_getElem _ _ hk, Nat.zero_add, circularBefore]

/-- Before every round both forms have the same working variables. -/
theorem circularBefore_eq (hin : StateWords) (block : Block) {t : Nat} (ht : t ≤ 80) :
    SlotsHold (circularBefore hin block t).1 (schedule block) (max t 16) ∧
      (circularBefore hin block t).2 = workingBefore hin block t := by
  induction t with
  | zero => exact ⟨slotsHold_loadWord block, (workingBefore_zero hin block).symm⟩
  | succ t ih =>
    obtain ⟨hslots, hworking⟩ := ih (by omega)
    have hword := circularWord_eq (schedule_followsRecurrence block) (by rw [length_schedule]; omega) hslots
    rw [circularBefore_succ hin block ht, workingBefore_succ hin block ht, circularRound]
    simp only [hword, hworking]
    exact ⟨hslots.set, trivial⟩

theorem circularBefore_eighty (hin : StateWords) (block : Block) :
    circularBefore hin block 80
      = kTable.zipIdx.foldl circularRound (Vector.ofFn (loadWord block), startWorking hin) := rfl

end Sys2Proof.Machine

open Sys2Proof.Machine in
/-- Settles O31: after 80 rounds both forms have the same working variables. -/
theorem circularScheduleAgrees : Obligations.CircularScheduleAgrees := by
  unfold Obligations.CircularScheduleAgrees
  intro hin block
  obtain ⟨-, hworking⟩ := circularBefore_eq hin block (le_refl 80)
  rw [compressCircular, ← circularBefore_eighty, hworking, workingBefore_eighty,
    compress_eq_feedForward]

end

section
/-!
The word functions bit by bit (spec/41_compress.md R103 to R108, 00_scope.md R10).
-/

namespace Sys2Proof.Machine

theorem getLsbD_ch (x y z : Word) {i : Nat} (hi : i < 64) :
    (ch x y z).getLsbD i = if x.getLsbD i then y.getLsbD i else z.getLsbD i := by
  rw [ch, BitVec.getLsbD_xor, BitVec.getLsbD_and, BitVec.getLsbD_and, BitVec.getLsbD_not]
  cases x.getLsbD i <;> simp [hi]

theorem getLsbD_maj (x y z : Word) (i : Nat) :
    (maj x y z).getLsbD i
      = ((x.getLsbD i && y.getLsbD i) || (x.getLsbD i && z.getLsbD i)
          || (y.getLsbD i && z.getLsbD i)) := by
  cases hx : x.getLsbD i <;> cases hy : y.getLsbD i <;> simp [maj, hx, hy]

/-- Every bit of the word of ones. -/
theorem getLsbD_ones {i : Nat} (hi : i < 64) : (0xFFFFFFFFFFFFFFFF#64).getLsbD i = true := by
  rw [show 0xFFFFFFFFFFFFFFFF#64 = BitVec.allOnes 64 by decide, BitVec.getLsbD_allOnes,
    decide_eq_true hi]

/-- A rotation takes bit `i` from `n` places up, around the top (R10): from the right shift below the top `n`
bits, from the left shift in them. -/
theorem getLsbD_rotr (x : Word) {n i : Nat} (h0 : 0 < n) (hn : n < 64) (hi : i < 64) :
    (rotr x n).getLsbD i = x.getLsbD ((i + n) % 64) := by
  rw [rotr, BitVec.getLsbD_or, BitVec.getLsbD_ushiftRight, BitVec.getLsbD_shiftLeft]
  obtain hlow | htop := lt_or_ge (i + n) 64
  · have hleft : i < 64 - n := by omega
    simp [Nat.mod_eq_of_lt hlow, hleft, Nat.add_comm n i]
  · have hleft : ¬ i < 64 - n := by omega
    have hplace : (i + n) % 64 = i - (64 - n) := by omega
    rw [BitVec.getLsbD_of_ge x (n + i) (by omega), hplace]
    simp [hi, hleft]

/-- A right shift takes bit `i` from `n` places up, and zeros enter at the top. -/
theorem getLsbD_shiftRight (x : Word) (n i : Nat) :
    (x >>> n).getLsbD i = (decide (i + n < 64) && x.getLsbD (i + n)) := by
  rw [BitVec.getLsbD_ushiftRight, Nat.add_comm n i]
  by_cases h : i + n < 64
  · simp [h]
  · simp [BitVec.getLsbD_of_ge x (i + n) (by omega)]

end Sys2Proof.Machine

open Sys2Proof.Machine in
/-- Settles O32: the bits of the two functions, and from them the corners. -/
theorem chooseAndMajorityBitByBit : Obligations.ChooseAndMajorityBitByBit := by
  unfold Obligations.ChooseAndMajorityBitByBit
  refine fun x y z => ⟨fun i hi => getLsbD_ch x y z hi, fun i _ => getLsbD_maj x y z i, ?chZeros, ?chOnes,
    ?chSame, ?majSame, ?majZeros, ?majOnes⟩ <;>
    refine BitVec.eq_of_getLsbD_eq fun i hi => ?_
  case chZeros => simp [getLsbD_ch _ _ _ hi]
  case chOnes => simp [getLsbD_ch _ _ _ hi, getLsbD_ones hi]
  case chSame => simp [getLsbD_ch _ _ _ hi]
  case majSame => cases hx : x.getLsbD i <;> simp [getLsbD_maj, hx]
  case majZeros => simp [getLsbD_maj]
  case majOnes =>
    cases hy : y.getLsbD i <;> simp [getLsbD_maj, getLsbD_ones hi, hy]

open Sys2Proof.Machine in
/-- Settles O33: the bits of a rotation and of a shift, and an XOR of them is one of their bits. -/
theorem sigmaFunctionsBitByBit : Obligations.SigmaFunctionsBitByBit := by
  unfold Obligations.SigmaFunctionsBitByBit
  intro x i hi
  have hrotr (n : Nat) (h0 : 0 < n) (hn : n < 64) := getLsbD_rotr x h0 hn hi
  refine ⟨hrotr, ?bigSigma0, ?bigSigma1, ?smallSigma0, ?smallSigma1⟩
  case bigSigma0 => simp [bigSigma0, hrotr]
  case bigSigma1 => simp [bigSigma1, hrotr]
  case smallSigma0 =>
    rw [smallSigma0, BitVec.getLsbD_xor, BitVec.getLsbD_xor, getLsbD_shiftRight, hrotr 1, hrotr 8] <;> decide
  case smallSigma1 =>
    rw [smallSigma1, BitVec.getLsbD_xor, BitVec.getLsbD_xor, getLsbD_shiftRight, hrotr 19, hrotr 61] <;> decide

end

section
/-!
The round constants as cube roots of primes (spec/41_compress.md R101).
-/

namespace Sys2Proof.Machine

/-- The numbers below `n` that satisfy `p`, in order, are the first ones that do. -/
theorem filter_range_eq_map_nth (p : Nat → Prop) [DecidablePred p] (n : Nat) :
    (List.range n).filter p = (List.range (Nat.count p n)).map (Nat.nth p) := by
  induction n with
  | zero => simp
  | succ n ih =>
    rw [List.range_succ, List.filter_append, ih, Nat.count_succ]
    by_cases hn : p n
    · simp [hn, List.range_succ, Nat.nth_count hn]
    · simp [hn]

/-- The first 80 primes. -/
def firstPrimes : List Nat :=
  [2, 3, 5, 7, 11, 13, 17, 19, 23, 29, 31, 37, 41, 43, 47, 53, 59, 61, 67, 71, 73, 79, 83, 89, 97, 101, 103,
   107, 109, 113, 127, 131, 137, 139, 149, 151, 157, 163, 167, 173, 179, 181, 191, 193, 197, 199, 211, 223,
   227, 229, 233, 239, 241, 251, 257, 263, 269, 271, 277, 281, 283, 293, 307, 311, 313, 317, 331, 337, 347,
   349, 353, 359, 367, 373, 379, 383, 389, 397, 401, 409]

/-- Below 21² a number is prime when nothing below 21 divides it but 1 and itself: the square of the least
factor of a composite number is no larger than the number. -/
theorem prime_iff_of_lt_441 {n : Nat} (hn : n < 441) :
    Nat.Prime n ↔ 2 ≤ n ∧ ∀ m < 21, 2 ≤ m → m ∣ n → m = n := by
  constructor
  · exact fun hp => ⟨hp.two_le, fun m _ hm hdvd => (Nat.dvd_prime_two_le hp hm).mp hdvd⟩
  · rintro ⟨h2, hsmall⟩
    by_contra hnot
    have hsq : n.minFac ^ 2 ≤ n := Nat.minFac_sq_le_self (by omega) hnot
    have hprime : n.minFac.Prime := Nat.minFac_prime (by omega)
    have hself : n.minFac = n := hsmall _ (by nlinarith) hprime.two_le n.minFac_dvd
    exact hnot (hself ▸ hprime)

theorem filter_prime_range : (List.range 410).filter Nat.Prime = firstPrimes := by
  have hcongr : ∀ n : Nat, n ∈ List.range 410 →
      decide (Nat.Prime n) = decide (2 ≤ n ∧ ∀ m < (21 : Nat), 2 ≤ m → m ∣ n → m = n) := fun n hn =>
    decide_eq_decide.mpr (prime_iff_of_lt_441 (by rw [List.mem_range] at hn; omega))
  rw [List.filter_congr hcongr]
  decide +kernel

theorem firstPrimes_getD {t : Nat} (ht : t < 80) : firstPrimes.getD t 0 = Nat.nth Nat.Prime t := by
  have hmap := filter_range_eq_map_nth Nat.Prime 410
  rw [filter_prime_range] at hmap
  have hcount : 80 = Nat.count Nat.Prime 410 := by simpa [firstPrimes] using congrArg List.length hmap
  rw [hmap, ← hcount]
  simp [ht]

/-- Every constant, with a whole part below 8 in front, is the cube root of its prime rounded down to 64
fractional bits. -/
theorem kTable_cubeRoots : ∀ t < 80, ∃ a < 8,
    (a * 2 ^ 64 + (kTable.getD t 0).toNat) ^ 3 ≤ firstPrimes.getD t 0 * 2 ^ 192 ∧
      firstPrimes.getD t 0 * 2 ^ 192 < (a * 2 ^ 64 + (kTable.getD t 0).toNat + 1) ^ 3 := by
  decide +kernel

/-- The low 64 bits of a whole part and a word behind it are the word. -/
theorem ofNat_mul_add_toNat (a : Nat) (k : Word) : BitVec.ofNat 64 (a * 2 ^ 64 + k.toNat) = k := by
  apply BitVec.eq_of_toNat_eq
  rw [BitVec.toNat_ofNat]
  omega

end Sys2Proof.Machine

open Sys2Proof.Machine in
/-- Settles O34: the 80 primes are those below 410, and the constants are their cube roots by computation. -/
theorem roundConstantsAreCubeRoots : Obligations.RoundConstantsAreCubeRoots := by
  unfold Obligations.RoundConstantsAreCubeRoots
  refine ⟨length_kTable, fun t ht => ?_⟩
  obtain ⟨a, -, hle, hlt⟩ := kTable_cubeRoots t ht
  rw [firstPrimes_getD ht] at hle hlt
  exact ⟨a * 2 ^ 64 + (kTable.getD t 0).toNat, hle, hlt, (ofNat_mul_add_toNat a _).symm⟩

end

section
/-!
The step by the offer it takes (spec/30_encoding.md R71, R72, R74, R76; 20_memory.md R63;
70_reset_and_hazards.md R198, R203): when none is taken, what taking each kind does, and what stays offered.
-/

namespace Sys2Proof.Machine

/-! ## The first acceptable offer -/

theorem firstOffer_cons_of_pos {p : HostEvent → Bool} {e : HostEvent} (h : p e = true)
    (es : List HostEvent) : firstOffer p (e :: es) = some (e, es) := by
  rw [firstOffer, if_pos h]

theorem firstOffer_cons_of_neg {p : HostEvent → Bool} {e : HostEvent} (h : p e = false)
    (es : List HostEvent) :
    firstOffer p (e :: es) = (firstOffer p es).map fun x => (x.1, e :: x.2) := by
  rw [firstOffer, if_neg (by simp [h])]

/-- Nothing is taken when no offer is acceptable. -/
theorem firstOffer_eq_none {p : HostEvent → Bool} {es : List HostEvent} (h : ∀ e ∈ es, p e = false) :
    firstOffer p es = none := by
  induction es with
  | nil => rfl
  | cons e es ih =>
    rw [firstOffer_cons_of_neg (h e List.mem_cons_self), ih fun e' he' => h e' (List.mem_cons_of_mem e he')]
    rfl

theorem offeredCommands_cons_of_not_command {e : HostEvent} (h : ∀ w, e ≠ .command w)
    (es : List HostEvent) : offeredCommands (e :: es) = offeredCommands es := by
  cases e with
  | command w => exact absurd rfl (h w)
  | reset | beat | take => rfl

theorem offeredCommands_cons_congr (e : HostEvent) {es es' : List HostEvent}
    (h : offeredCommands es = offeredCommands es') :
    offeredCommands (e :: es) = offeredCommands (e :: es') := by
  cases e <;> simp [offeredCommands, h]

/-- Taking an offer that is no command word leaves the command words offered. -/
theorem offeredCommands_of_firstOffer {p : HostEvent → Bool} {es es' : List HostEvent} {e : HostEvent}
    (h : firstOffer p es = some (e, es')) (he : ∀ w, e ≠ .command w) :
    offeredCommands es' = offeredCommands es := by
  induction es generalizing es' with
  | nil => simp [firstOffer] at h
  | cons a es ih =>
    cases ha : p a with
    | true =>
      rw [firstOffer_cons_of_pos ha] at h
      cases h
      exact (offeredCommands_cons_of_not_command he es).symm
    | false =>
      rw [firstOffer_cons_of_neg ha, Option.map_eq_some_iff] at h
      obtain ⟨⟨e₀, es₀⟩, hfirst, hx⟩ := h
      cases hx
      exact offeredCommands_cons_congr a (ih hfirst)

/-- Without a `RESET` among the offers every beat is a payload byte offered. -/
theorem not_mem_beat_of_offeredBeats {es : List HostEvent} (h : offeredBeats es = [])
    (hreset : HostEvent.reset ∉ es) (b : Byte) : HostEvent.beat b ∉ es := by
  induction es with
  | nil => exact List.not_mem_nil
  | cons e es ih =>
    rw [List.mem_cons, not_or] at hreset ⊢
    cases e with
    | reset => exact absurd rfl hreset.1
    | beat b' => simp [offeredBeats] at h
    | command w | take => exact ⟨nofun, ih h hreset.2⟩

/-- Without a `RESET` among the offers every readiness of the host can be used up. -/
theorem not_mem_take_of_takeOffer {es : List HostEvent} (h : takeOffer es = none)
    (hreset : HostEvent.reset ∉ es) : HostEvent.take ∉ es := by
  induction es with
  | nil => exact List.not_mem_nil
  | cons e es ih =>
    rw [List.mem_cons, not_or] at hreset ⊢
    cases e with
    | reset => exact absurd rfl hreset.1
    | take => simp [takeOffer] at h
    | command w | beat b => exact ⟨nofun, ih (Option.map_eq_none_iff.mp h) hreset.2⟩

/-! ## The step by its first acceptable offer -/

/-- With no acceptable offer the engine waits. -/
theorem step_of_none_accepted {s : State} (h : ∀ e ∈ s.pending, s.accepts e = false) :
    step s = .next s := by
  simp only [step, State.nextMove, firstOffer_eq_none h]

/-- A command word taken runs `exec` of what it decodes to. -/
theorem step_of_command {s : State} {w : Command} {es : List HostEvent} {i : Instr} {rest : List Byte}
    {owed : Word} (hfirst : firstOffer s.accepts s.pending = some (.command w, es))
    (hdecode : decode w (offeredBeats es) = ⟨i, rest, owed⟩) :
    step s
      = onNext (exec i { s with owed := owed, pending := dropBeats (payloadLength i) es })
          State.handOver := by
  simp only [step, State.nextMove, hfirst, fetchInstr, State.fetchState, hdecode]

/-- A command word offered first is taken when the engine is ready for one. -/
theorem step_of_command_pending {s : State} {w : Command} {es : List HostEvent} {i : Instr}
    {rest : List Byte} {owed : Word} (hstage : s.stage = .ready) (hpending : s.pending = .command w :: es)
    (hdecode : decode w (offeredBeats es) = ⟨i, rest, owed⟩) :
    step s
      = onNext (exec i { s with owed := owed, pending := dropBeats (payloadLength i) es })
          State.handOver := by
  refine step_of_command ?_ hdecode
  rw [hpending]
  exact firstOffer_cons_of_pos (decide_eq_true hstage) es

/-- A beat offered first is taken while bytes are owed. -/
theorem step_of_beat_pending {s : State} {b : Byte} {es : List HostEvent} (hstage : s.stage = .absorbing)
    (hpending : s.pending = .beat b :: es) :
    step s = .next { s.beat b with owed := s.owed - 1, pending := es } := by
  have hfirst : firstOffer s.accepts s.pending = some (.beat b, es) := by
    rw [hpending]
    exact firstOffer_cons_of_pos (decide_eq_true hstage) es
  simp only [step, State.nextMove, hfirst]
  rfl

/-- A readiness of the host offered first takes the digest held. -/
theorem step_of_take_pending {s : State} {d : Digest} {es : List HostEvent} (hdout : s.dout = some d)
    (hpending : s.pending = .take :: es) :
    step s = .next { s with dout := none, pending := es, digests := s.digests ++ [d] } := by
  have hstage : s.stage = .emitting := s.stage_eq_emitting.mpr (by simp [hdout])
  have hfirst : firstOffer s.accepts s.pending = some (.take, es) := by
    rw [hpending]
    exact firstOffer_cons_of_pos (decide_eq_true hstage) es
  simp only [step, State.nextMove, hfirst]
  exact congrArg Host.Outcome.next (State.transferDigest_some (s := { s with pending := es }) hdout)

/-- With a command in flight a step completes, and takes no command word. -/
theorem step_of_not_ready {s : State} (hstage : s.stage ≠ .ready) :
    ∃ t, step s = .next t ∧ offeredCommands t.pending = offeredCommands s.pending := by
  unfold step State.nextMove
  cases hfirst : firstOffer s.accepts s.pending with
  | none => exact ⟨s, rfl, rfl⟩
  | some x =>
    obtain ⟨e, es⟩ := x
    cases e with
    | reset | beat b => exact ⟨_, rfl, offeredCommands_of_firstOffer hfirst nofun⟩
    | take =>
      refine ⟨_, rfl, Eq.trans ?_ (offeredCommands_of_firstOffer hfirst nofun)⟩
      cases hdout : s.dout <;> simp [State.transferDigest]
    | command w => exact absurd (of_decide_eq_true (firstOffer_sat hfirst)) hstage

/-- A hand-over with a digest presented and a readiness of the host to use up. -/
theorem State.handOver_some {s : State} {d : Digest} {es : List HostEvent} (hdout : s.dout = some d)
    (htake : takeOffer s.pending = some es) :
    s.handOver = { s with dout := none, pending := es, digests := s.digests ++ [d] } := by
  simp [State.handOver, State.transferDigest, hdout, htake]

/-! ## The channels -/

theorem State.doutData_of_not_emitting {s : State} (h : s.stage ≠ .emitting) : s.doutData = 0 := by
  rw [Ne, State.stage_eq_emitting, not_not] at h
  rw [State.doutData, h, Option.getD_none]

/-- One owed byte less is one less as a number, when any is owed. -/
theorem toNat_sub_one_add_one {owed : Word} (h : owed ≠ 0) : (owed - 1).toNat + 1 = owed.toNat := by
  bv_omega

end Sys2Proof.Machine

open Sys2Proof.Machine in
/-- Settles O40: a `RESET` offered first is always taken. -/
theorem resetFromAnyState : Obligations.ResetFromAnyState := by
  unfold Obligations.ResetFromAnyState
  exact fun s es hpending => step_of_reset_pending hpending

open Sys2Proof.Machine in
/-- Settles O41: the step of a command word taken, with what it decodes to. -/
theorem stepRunsTheDecodedCommand : Obligations.StepRunsTheDecodedCommand := by
  unfold Obligations.StepRunsTheDecodedCommand
  exact fun s w es i rest owed hfirst hdecode => step_of_command hfirst hdecode

open Sys2Proof.Machine in
/-- Settles O45: a command in flight makes the stage another than the ready one, in which alone a command
word is acceptable. -/
theorem commandsWaitForTheOneInFlight : Obligations.CommandsWaitForTheOneInFlight := by
  unfold Obligations.CommandsWaitForTheOneInFlight
  refine fun s => ⟨fun hflight => ?wait, fun howed hdout => ?ready⟩
  case wait =>
    have hlow : s.cmdReady = false := s.cmdReady_eq_false.mpr hflight
    exact ⟨hlow, step_of_not_ready (of_decide_eq_false hlow)⟩
  case ready => exact decide_eq_true (s.stage_eq_ready.mpr ⟨hdout, howed⟩)

open Sys2Proof.Machine in
/-- Settles O46: while bytes are owed only a beat or a `RESET` is acceptable. -/
theorem incompleteUpdateWaitsForItsBeats : Obligations.IncompleteUpdateWaitsForItsBeats := by
  unfold Obligations.IncompleteUpdateWaitsForItsBeats
  refine fun s hstage => ⟨fun hbeats hreset => step_of_none_accepted fun e he => ?wait,
    fun b es hpending => ?absorb⟩
  case wait =>
    cases e with
    | reset => exact absurd he hreset
    | beat b => exact absurd he (not_mem_beat_of_offeredBeats hbeats hreset b)
    | command w => simp [State.accepts, State.cmdReady, hstage]
    | take => simp [State.accepts, State.doutValid, hstage]
  case absorb =>
    obtain ⟨-, howed⟩ := s.stage_eq_absorbing.mp hstage
    exact ⟨_, step_of_beat_pending hstage hpending, rfl, toNat_sub_one_add_one howed⟩

open Sys2Proof.Machine in
/-- Settles O47: while a digest is held only a readiness of the host or a `RESET` is acceptable. -/
theorem digestWaitsUntilTaken : Obligations.DigestWaitsUntilTaken := by
  unfold Obligations.DigestWaitsUntilTaken
  intro s d hdout
  have hstage : s.stage = .emitting := s.stage_eq_emitting.mpr (by simp [hdout])
  refine ⟨fun htake hreset => step_of_none_accepted fun e he => ?wait,
    fun es hpending => step_of_take_pending hdout hpending, rfl⟩
  case wait =>
    cases e with
    | reset => exact absurd he hreset
    | take => exact absurd he (not_mem_take_of_takeOffer htake hreset)
    | command w => simp [State.accepts, State.cmdReady, hstage]
    | beat b => simp [State.accepts, State.dinReady, hstage]

open Sys2Proof.Machine in
/-- Settles O49: each of the three stages is ready on its own channel only. -/
theorem exactlyOneChannelIsReady : Obligations.ExactlyOneChannelIsReady := by
  unfold Obligations.ExactlyOneChannelIsReady
  refine fun s => ⟨?one, fun hvalid => ?zero⟩
  case one =>
    cases hstage : s.stage <;>
      simp [State.portOut, State.cmdReady, State.dinReady, State.doutValid, hstage]
  case zero => exact State.doutData_of_not_emitting (of_decide_eq_false hvalid)

open Sys2Proof.Machine in
/-- Settles O50: under `rst` an edge is a `RESET` and looks at nothing else. -/
theorem resetPinOverridesTransfers : Obligations.ResetPinOverridesTransfers := by
  unfold Obligations.ResetPinOverridesTransfers
  exact fun s p hrst => State.edge_of_rst hrst

end

section
/-!
A `HASH` line through the machine's own steps (spec/30_encoding.md R81): one step for each of its commands.
-/

namespace Sys2Proof.Machine

/-- The events of a `HASH` line, in order. -/
theorem hash_events (m : List Byte) :
    (Line.hash m).events
      = .command (commandWord 0b01#2 0)
        :: .command (commandWord 0b10#2 (BitVec.ofNat 64 m.length))
        :: (m.map HostEvent.beat ++ [.command (commandWord 0b11#2 0), .take]) := by
  simp [Line.events, instrEvents, encode]

/-- `INIT` offered first runs in one step. -/
theorem step_of_init_pending {s : State} {es : List HostEvent} (hstage : s.stage = .ready)
    (hpending : s.pending = .command (commandWord 0b01#2 0) :: es) :
    step s
      = .next { s with
          h := iv, totalBytes := 0, highBitCount := 0, phase := .active, owed := 0, pending := es } := by
  obtain ⟨hdout, -⟩ := s.stage_eq_ready.mp hstage
  rw [step_of_command_pending hstage hpending (decode_commandWord_init 0 _), exec_init, onNext_next,
    State.handOver_none (by exact hdout), payloadLength, dropBeats_zero]

/-- `UPDATE` offered first with its whole payload runs in one step. -/
theorem step_of_update_pending {s : State} {m : List Byte} {es : List HostEvent} (hstage : s.stage = .ready)
    (hactive : s.phase = .active) (hlen : m.length < 2 ^ 64)
    (hpending : s.pending = .command (commandWord 0b10#2 (BitVec.ofNat 64 m.length))
      :: (m.map HostEvent.beat ++ es)) :
    step s = .next { s.absorb m with owed := 0, pending := es } := by
  obtain ⟨hdout, -⟩ := s.stage_eq_ready.mp hstage
  have hdecode := decode_commandWord_update_append hlen (offeredBeats es)
  rw [← offeredBeats_map] at hdecode
  rw [step_of_command_pending hstage hpending hdecode, exec_update_active m (by exact hactive),
    State.absorb_with_owed_pending, onNext_next,
    State.handOver_none (by exact (s.absorb_dout m).trans hdout), payloadLength, dropBeats_map]

/-- `FINISH` offered first with the host ready behind it runs in one step and delivers its digest. -/
theorem step_of_finish_take_pending {s : State} {es : List HostEvent} (hstage : s.stage = .ready)
    (hactive : s.phase = .active)
    (hpending : s.pending = .command (commandWord 0b11#2 0) :: .take :: es) :
    step s
      = .next { State.reset with pending := es, digests := s.digests ++ [digestWord s.finalize.h] } := by
  rw [step_of_command_pending hstage hpending (decode_commandWord_finish 0 _),
    exec_finish_active (by exact hactive), onNext_next, payloadLength, dropBeats_zero,
    State.handOver_some (es := es) rfl rfl, State.finalize_h, State.finalize_h]
  rfl

/-- No command is in flight, the context holds `m`, the host offers `es` and has taken `ds`. -/
structure State.Between (s : State) (m : List Byte) (es : List HostEvent) (ds : List Digest) : Prop where
  stage : s.stage = .ready
  active : s.phase = .active
  inRange : s.CountersInRange
  holds : s.HoldsMessage m
  pending : s.pending = es
  digests : s.digests = ds

/-- After `INIT` the context holds the empty message. -/
theorem step_init_between {s : State} {es : List HostEvent} (hstage : s.stage = .ready)
    (hpending : s.pending = .command (commandWord 0b01#2 0) :: es) :
    ∃ t, step s = .next t ∧ t.Between [] es s.digests := by
  obtain ⟨hdout, -⟩ := s.stage_eq_ready.mp hstage
  exact ⟨_, step_of_init_pending hstage hpending, (State.stage_eq_ready _).mpr ⟨hdout, rfl⟩, rfl,
    State.countersInRange_of_zero rfl, State.holdsMessage_nil rfl rfl rfl, rfl, rfl⟩

/-- After `UPDATE` the context holds its payload behind what it held. -/
theorem State.Between.step_update {s : State} {m p : List Byte} {es : List HostEvent} {ds : List Digest}
    (h : s.Between m (.command (commandWord 0b10#2 (BitVec.ofNat 64 p.length))
      :: (p.map HostEvent.beat ++ es)) ds) (hlen : p.length < 2 ^ 64) :
    ∃ t, step s = .next t ∧ t.Between (m ++ p) es ds := by
  obtain ⟨hdout, -⟩ := s.stage_eq_ready.mp h.stage
  exact ⟨_, step_of_update_pending h.stage h.active hlen h.pending,
    (State.stage_eq_ready _).mpr ⟨(s.absorb_dout p).trans hdout, rfl⟩, (s.absorb_phase p).trans h.active,
    s.absorb_countersInRange p, State.holdsMessage_congr rfl rfl rfl rfl (h.holds.absorb p), rfl,
    (s.absorb_digests p).trans h.digests⟩

/-- A `FINISH` with the host ready delivers the digest of the message held and leaves the reset state. -/
theorem State.Between.step_finish {s : State} {m : List Byte} {es : List HostEvent} {ds : List Digest}
    (h : s.Between m (.command (commandWord 0b11#2 0) :: .take :: es) ds) (hlen : m.length < 2 ^ 125) :
    step s
      = .next { State.reset with pending := es, digests := ds ++ [digestWord (messageWords m)] } := by
  rw [step_of_finish_take_pending h.stage h.active h.pending, h.holds.finalize_h h.inRange hlen, h.digests]

end Sys2Proof.Machine

open Sys2Proof.Machine in
/-- Settles O48: one step for each of the three commands, with the message held after it. -/
theorem hashLineRunsInThreeSteps : Obligations.HashLineRunsInThreeSteps := by
  unfold Obligations.HashLineRunsInThreeSteps
  intro s m hstage hlen hpending
  rw [hash_events] at hpending
  obtain ⟨t, hinit, ht⟩ := step_init_between hstage hpending
  obtain ⟨u, hupdate, hu⟩ := ht.step_update hlen
  exact (run_succ_of_next hinit).trans <| (run_succ_of_next hupdate).trans <|
    run_succ_of_next (hu.step_finish (lt_trans hlen (by decide)))

end

section
/-!
Whole commands at the ports (spec/30_encoding.md R71, R72, R74, R76): the edge that accepts a command, the
edges that carry the beats of an `UPDATE`, and those at which a digest waits.
-/

namespace Sys2Proof.Machine

theorem State.edges_cons_of_next {s t : State} {p : PortIn} (h : s.edge p = .next t) (ps : List PortIn) :
    State.edges (p :: ps) s = State.edges ps t := by
  rw [State.edges, h]

/-- An edge at which the engine is ready for a command and none is offered changes nothing. -/
theorem State.edge_of_ready_quiet {s : State} {p : PortIn} (hrst : p.rst = false)
    (hstage : s.stage = .ready) (hcmd : p.cmdValid = false) : s.edge p = .next s := by
  simp [State.edge, hrst, hstage, hcmd]

/-- An edge that accepts a command runs it with none of its beats; they are owed. -/
theorem State.edge_of_ready_command {s : State} {p : PortIn} (hrst : p.rst = false)
    (hstage : s.stage = .ready) (hcmd : p.cmdValid = true) {i : Instr} {rest : List Byte} {owed : Word}
    (hdecode : decode (commandWord p.cmdOp p.cmdLen) [] = ⟨i, rest, owed⟩) :
    s.edge p = exec i { s with owed := owed } := by
  simp [State.edge, hrst, hstage, hcmd, hdecode]

/-- An accepted `UPDATE` has absorbed nothing yet and owes its `len`. -/
theorem State.edge_update {s : State} {p : PortIn} (hrst : p.rst = false) (hstage : s.stage = .ready)
    (hcmd : p.cmdValid = true) (hop : p.cmdOp = 0b10#2) (hactive : s.phase = .active)
    (hrange : s.CountersInRange) : s.edge p = .next { s with owed := p.cmdLen } := by
  have hdecode : decode (commandWord p.cmdOp p.cmdLen) [] = ⟨.update [], [], p.cmdLen⟩ := by
    rw [hop, decode_commandWord_update]
    simp
  rw [State.edge_of_ready_command hrst hstage hcmd hdecode, exec_update_active [] (by exact hactive),
    State.absorb_nil (by exact hrange)]

/-- An accepted `FINISH` holds its digest over the reset state. -/
theorem State.edge_finish {s : State} {p : PortIn} (hrst : p.rst = false) (hstage : s.stage = .ready)
    (hcmd : p.cmdValid = true) (hop : p.cmdOp = 0b11#2) (hactive : s.phase = .active) :
    s.edge p
      = .next { State.reset with
          dout := some (digestWord (compressBlocks s.h (blocksOf s.paddedTail)))
          pending := s.pending
          digests := s.digests } := by
  have hdecode : decode (commandWord p.cmdOp p.cmdLen) [] = ⟨.finish, [], 0⟩ := by
    rw [hop, decode_commandWord_finish]
  rw [State.edge_of_ready_command hrst hstage hcmd hdecode, exec_finish_paddedTail (by exact hactive)]
  rfl

/-- A digest waits through edges at which the host is not ready for it. -/
theorem State.edges_of_emitting {s : State} {ps : List PortIn} (hstage : s.stage = .emitting)
    (hps : ∀ p ∈ ps, p.rst = false ∧ p.doutReady = false) (qs : List PortIn) :
    State.edges (ps ++ qs) s = State.edges qs s := by
  induction ps with
  | nil => rfl
  | cons p ps ih =>
    obtain ⟨hrst, hquiet⟩ := hps p List.mem_cons_self
    have hedge : s.edge p = .next s := by rw [State.edge_of_emitting hrst hstage, hquiet]; rfl
    rw [List.cons_append, State.edges_cons_of_next hedge]
    exact ih fun q hq => hps q (List.mem_cons_of_mem p hq)

theorem State.with_owed_of_eq {s : State} {owed : Word} (h : s.owed = owed) :
    ({ s with owed := owed } : State) = s := by
  rw [← h]

/-- Absorbing does not look at what is owed. -/
theorem State.absorb_with_owed (s : State) (owed : Word) (p : List Byte) :
    ({ s with owed := owed } : State).absorb p = { s.absorb p with owed := owed } := by
  have hpending : s.pending = (s.absorb p).pending := (s.absorb_pending p).symm
  exact (s.absorb_with_owed_pending owed s.pending p).trans (by rw [hpending])

/-- The beats the host offers at a run of edges, in order. -/
def beatsAt (ps : List PortIn) : List Byte := (ps.filter fun p => p.dinValid).map PortIn.dinData

theorem beatsAt_cons_of_valid {p : PortIn} (h : p.dinValid = true) (ps : List PortIn) :
    beatsAt (p :: ps) = p.dinData :: beatsAt ps := by
  simp [beatsAt, h]

theorem beatsAt_cons_of_not_valid {p : PortIn} (h : p.dinValid = false) (ps : List PortIn) :
    beatsAt (p :: ps) = beatsAt ps := by
  simp [beatsAt, h]

/-- At the edges `ps` no further command is offered once `n` beats were. -/
def CommandsWithin (ps : List PortIn) (n : Nat) : Prop :=
  ∀ (k : Nat) (hk : k < ps.length), ps[k].cmdValid = true → (beatsAt (ps.take k)).length < n

/-- The first edge offers no command when no beat is left to come. -/
theorem CommandsWithin.cmdValid_eq_false {p : PortIn} {ps : List PortIn}
    (h : CommandsWithin (p :: ps) 0) : p.cmdValid = false := by
  by_contra hvalid
  exact Nat.not_lt_zero _ (h 0 (Nat.zero_lt_succ _) (by simpa using hvalid))

theorem CommandsWithin.tail {p : PortIn} {ps : List PortIn} {n m : Nat} (h : CommandsWithin (p :: ps) n)
    (hm : ∀ qs, (beatsAt (p :: qs)).length < n → (beatsAt qs).length < m) : CommandsWithin ps m :=
  fun k hk hvalid => hm _ (h (k + 1) (Nat.succ_lt_succ hk) hvalid)

/-- The edges that carry exactly the beats owed end in the state that has absorbed them: an edge with a beat
absorbs it, and one without changes nothing, since a command is offered only while bytes are owed. -/
theorem State.edges_of_beats {s : State} {ps : List PortIn} (hdout : s.dout = none)
    (hrange : s.CountersInRange) (hrst : ∀ p ∈ ps, p.rst = false)
    (hcmd : CommandsWithin ps s.owed.toNat) (howed : (beatsAt ps).length = s.owed.toNat) :
    State.edges ps s = .next { s.absorb (beatsAt ps) with owed := 0 } := by
  induction ps generalizing s with
  | nil =>
    have hzero : s.owed = 0 := BitVec.eq_of_toNat_eq howed.symm
    have hnil : s.absorb (beatsAt []) = s := State.absorb_nil hrange
    rw [State.edges, hnil, ← hzero]
  | cons p ps ih =>
    have hp : p.rst = false := hrst p List.mem_cons_self
    have hrst' : ∀ q ∈ ps, q.rst = false := fun q hq => hrst q (List.mem_cons_of_mem p hq)
    cases hvalid : p.dinValid with
    | false =>
      rw [beatsAt_cons_of_not_valid hvalid] at howed ⊢
      have hedge : s.edge p = .next s := by
        by_cases hzero : s.owed = 0
        · rw [hzero] at hcmd
          exact State.edge_of_ready_quiet hp (s.stage_eq_ready.mpr ⟨hdout, hzero⟩) hcmd.cmdValid_eq_false
        · rw [State.edge_of_absorbing hp (s.stage_eq_absorbing.mpr ⟨hdout, hzero⟩), hvalid]
          rfl
      rw [State.edges_cons_of_next hedge]
      exact ih hdout hrange hrst'
        (hcmd.tail fun qs hqs => by rwa [beatsAt_cons_of_not_valid hvalid] at hqs) howed
    | true =>
      rw [beatsAt_cons_of_valid hvalid] at howed ⊢
      have hne : s.owed ≠ 0 := fun hzero => by rw [hzero] at howed; simp at howed
      have hedge : s.edge p = .next { s.absorb [p.dinData] with owed := s.owed - 1 } := by
        rw [State.edge_of_absorbing hp (s.stage_eq_absorbing.mpr ⟨hdout, hne⟩), hvalid, if_pos rfl,
          State.acceptBeat, State.beat_eq_absorb hrange]
      rw [← toNat_sub_one_add_one hne] at hcmd howed
      have hrest := ih (s := { s.absorb [p.dinData] with owed := s.owed - 1 })
        ((s.absorb_dout _).trans hdout) (s.absorb_countersInRange _) hrst'
        (hcmd.tail fun qs hqs => by
          rw [beatsAt_cons_of_valid hvalid] at hqs
          exact Nat.lt_of_succ_lt_succ hqs)
        (Nat.succ.inj howed)
      rw [State.edges_cons_of_next hedge, hrest, State.absorb_with_owed, State.absorb_absorb,
        List.singleton_append]

end Sys2Proof.Machine

open Sys2Proof.Machine in
/-- Settles O51: the accepted `UPDATE` owes its `len`, and the edges that carry its beats absorb them. -/
theorem portLevelUpdateRefinesTheCommand : Obligations.PortLevelUpdateRefinesTheCommand := by
  unfold Obligations.PortLevelUpdateRefinesTheCommand
  intro s first ps hstage hactive hrange hrst hcmd hop hps hwithin hbeats
  obtain ⟨hdout, howed⟩ := s.stage_eq_ready.mp hstage
  have hwithin' : CommandsWithin ps first.cmdLen.toNat := fun k hk hvalid => by
    rw [beatsAt, List.length_map]
    exact hwithin k hk hvalid
  rw [State.edges_cons_of_next (State.edge_update hrst hstage hcmd hop hactive hrange),
    State.edges_of_beats (by exact hdout) (by exact hrange) hps hwithin'
      (by rw [beatsAt, List.length_map, hbeats]),
    State.absorb_with_owed, State.with_owed_of_eq ((s.absorb_owed _).trans howed),
    exec_update_active _ hactive]
  rfl

open Sys2Proof.Machine in
/-- Settles O52: the accepted `FINISH` holds its digest, which waits and is then transferred. -/
theorem portLevelFinishHoldsItsDigest : Obligations.PortLevelFinishHoldsItsDigest := by
  unfold Obligations.PortLevelFinishHoldsItsDigest
  intro s first last ps hstage hactive hrst hcmd hop hps hlast hready
  rw [State.edges_cons_of_next (State.edge_finish hrst hstage hcmd hop hactive),
    State.edges_of_emitting (by rfl) hps,
    State.edges_cons_of_next (State.edge_of_emitting hlast rfl), hready, if_pos rfl,
    State.transferDigest_some rfl]
  rfl

end

section
/-!
The traces that run (spec/30_encoding.md R82): whether a trace runs depends on `phase` alone, so the phases
are the states of an automaton over the events, and its language is compared with the call order by the laws
of Kleene algebra.
-/

namespace Sys2Proof.Machine

open scoped Computability

/-! ## The automaton of the phases -/

/-- The phase after an event, if the event is inside the contract. -/
def Event.after : Event → Phase → Option Phase
  | .reset, _ => some .idle
  | .init, _ => some .active
  | .update _, .idle => none
  | .update _, .active => some .active
  | .finish, .idle => none
  | .finish, .active => some .idle
  | .rsvd, _ => none

/-- The phase after a trace, if every event of it is inside the contract. -/
def phaseAfter : List Event → Phase → Option Phase
  | [], p => some p
  | e :: es, p => (e.after p).bind (phaseAfter es)

theorem phaseAfter_append (es es' : List Event) (p : Phase) :
    phaseAfter (es ++ es') p = (phaseAfter es p).bind (phaseAfter es') := by
  induction es generalizing p with
  | nil => rfl
  | cons e es ih => simp only [List.cons_append, phaseAfter, ih, Option.bind_assoc]

/-- An event completes in the phase the automaton says, or is a contract violation. -/
theorem Event.apply_cases (e : Event) (s : State) :
    (∃ t, e.apply s = .next t ∧ e.after s.phase = some t.phase) ∨
      (∃ f, e.apply s = .fault f) ∧ e.after s.phase = none := by
  cases e with
  | reset => exact .inl ⟨_, rfl, rfl⟩
  | init => exact .inl ⟨_, rfl, rfl⟩
  | rsvd => exact .inr ⟨⟨_, rfl⟩, rfl⟩
  | update payload =>
    obtain hphase | hphase := s.phase.idle_or_active
    · exact .inr ⟨⟨_, exec_update_idle _ hphase⟩, by rw [hphase]; rfl⟩
    · exact .inl ⟨_, exec_update_active _ hphase, by rw [State.absorb_phase, hphase]; rfl⟩
  | finish =>
    obtain hphase | hphase := s.phase.idle_or_active
    · exact .inr ⟨⟨_, finish_apply_idle hphase⟩, by rw [hphase]; rfl⟩
    · exact .inl ⟨_, finish_apply_active hphase, by rw [hphase]; rfl⟩

/-- A trace runs to the phase the automaton says, or ends in a contract violation. -/
theorem runTrace_cases (es : List Event) (s : State) :
    (∃ t, runTrace es s = .next t ∧ phaseAfter es s.phase = some t.phase) ∨
      (∃ f, runTrace es s = .fault f) ∧ phaseAfter es s.phase = none := by
  induction es generalizing s with
  | nil => exact .inl ⟨s, rfl, rfl⟩
  | cons e es ih =>
    obtain ⟨t, happly, hafter⟩ | ⟨⟨f, happly⟩, hafter⟩ := e.apply_cases s
    · simp only [runTrace, phaseAfter, happly, hafter]
      exact ih t
    · simp only [runTrace, phaseAfter, happly, hafter]
      exact .inr ⟨⟨f, rfl⟩, rfl⟩

/-- A trace runs exactly when the automaton accepts it. -/
theorem runTrace_next_iff (es : List Event) (s : State) :
    (∃ t, runTrace es s = .next t) ↔ ∃ q, phaseAfter es s.phase = some q := by
  obtain ⟨t, hrun, hphase⟩ | ⟨⟨f, hrun⟩, hphase⟩ := runTrace_cases es s <;> simp [hrun, hphase]

/-- The traces that lead from phase `p` to phase `q`. -/
def tracesFromTo (p q : Phase) : Language Event := {es | phaseAfter es p = some q}

theorem mul_tracesFromTo_le (p q r : Phase) :
    tracesFromTo p q * tracesFromTo q r ≤ tracesFromTo p r := by
  intro es hes
  obtain ⟨a, (ha : phaseAfter a p = some q), b, hb, rfl⟩ := Language.mem_mul.mp hes
  exact (phaseAfter_append a b p).trans (by rw [ha, Option.bind_some]; exact hb)

/-- Parts that lead from phase to phase lead so one after the other. -/
theorem mul_le_tracesFromTo {l m : Language Event} {p q r : Phase} (hl : l ≤ tracesFromTo p q)
    (hm : m ≤ tracesFromTo q r) : l * m ≤ tracesFromTo p r :=
  (mul_le_mul' hl hm).trans (mul_tracesFromTo_le p q r)

theorem one_le_tracesFromTo (p : Phase) : 1 ≤ tracesFromTo p p := by
  rintro _ rfl
  rfl

/-- What leads back to its phase does so any number of times. -/
theorem kstar_le_tracesFromTo {l : Language Event} {p : Phase} (hl : l ≤ tracesFromTo p p) :
    l∗ ≤ tracesFromTo p p :=
  kstar_le_of_mul_le_left (one_le_tracesFromTo p) (mul_le_tracesFromTo le_rfl hl)

/-! ## The call order runs -/

theorem initCalls_le (p : Phase) : initCalls ≤ tracesFromTo p .active := by
  rintro _ rfl
  rfl

theorem updateCalls_le : updateCalls ≤ tracesFromTo .active .active := by
  rintro _ ⟨payload, rfl⟩
  rfl

theorem finishCalls_le : finishCalls ≤ tracesFromTo .active .idle := by
  rintro _ rfl
  rfl

theorem resetEvents_le (p : Phase) : resetEvents ≤ tracesFromTo p .idle := by
  rintro _ rfl
  rfl

theorem messageCalls_le (p : Phase) : messageCalls ≤ tracesFromTo p .active :=
  mul_le_tracesFromTo (initCalls_le p) (kstar_le_tracesFromTo updateCalls_le)

/-- The traces that run from reset. -/
def tracesFromReset : Language Event := tracesFromTo .idle .idle + tracesFromTo .idle .active

/-- `( (INIT UPDATE*)+ FINISH )*` leads from IDLE to IDLE. -/
theorem kstar_finished_le :
    (messageCalls * messageCalls∗ * finishCalls)∗ ≤ tracesFromTo .idle .idle :=
  kstar_le_tracesFromTo <| mul_le_tracesFromTo
    (mul_le_tracesFromTo (messageCalls_le _) (kstar_le_tracesFromTo (messageCalls_le _))) finishCalls_le

theorem kstar_messageCalls_le : messageCalls∗ ≤ tracesFromReset := by
  rw [← one_add_mul_kstar]
  exact add_le_add (one_le_tracesFromTo .idle)
    (mul_le_tracesFromTo (messageCalls_le _) (kstar_le_tracesFromTo (messageCalls_le _)))

/-- A part that leads from IDLE to IDLE may stand before a trace that runs from reset. -/
theorem mul_le_tracesFromReset {l m : Language Event} (hl : l ≤ tracesFromTo .idle .idle)
    (hm : m ≤ tracesFromReset) : l * m ≤ tracesFromReset := by
  refine (mul_le_mul' hl hm).trans ?_
  rw [tracesFromReset, mul_add]
  exact add_le_add (mul_tracesFromTo_le _ _ _) (mul_tracesFromTo_le _ _ _)

theorem orderedCalls_le : orderedCalls ≤ tracesFromReset :=
  mul_le_tracesFromReset kstar_finished_le kstar_messageCalls_le

theorem callOrder_le : callOrder ≤ tracesFromReset := by
  refine mul_le_tracesFromReset (kstar_le_tracesFromTo ?_) orderedCalls_le
  refine (mul_le_mul' orderedCalls_le le_rfl).trans ?_
  rw [tracesFromReset, add_mul]
  exact add_le (mul_le_tracesFromTo le_rfl (resetEvents_le _))
    (mul_le_tracesFromTo le_rfl (resetEvents_le _))

/-! ## What runs is in the call order -/

/-- The traces of the call order that end in a phase: those that end in ACTIVE have a message begun. -/
def orderedTo : Phase → Language Event
  | .idle => (orderedCalls * resetEvents)∗ * (messageCalls * messageCalls∗ * finishCalls)∗
  | .active =>
    (orderedCalls * resetEvents)∗
      * ((messageCalls * messageCalls∗ * finishCalls)∗ * (messageCalls∗ * messageCalls))

theorem orderedTo_le_callOrder (p : Phase) : orderedTo p ≤ callOrder := by
  cases p with
  | idle =>
    refine mul_le_mul' le_rfl ?_
    exact (mul_one _).symm.le.trans (mul_le_mul' le_rfl one_le_kstar)
  | active => exact mul_le_mul' le_rfl (mul_le_mul' le_rfl kstar_mul_le_kstar)

/-- A `RESET` returns to the start of the pattern. -/
theorem orderedTo_mul_resetEvents_le (p : Phase) : orderedTo p * resetEvents ≤ orderedTo .idle := by
  calc orderedTo p * resetEvents
      ≤ callOrder * resetEvents := mul_le_mul' (orderedTo_le_callOrder p) le_rfl
    _ = (orderedCalls * resetEvents)∗ * (orderedCalls * resetEvents) := mul_assoc _ _ _
    _ ≤ (orderedCalls * resetEvents)∗ * 1 := kstar_mul_le_kstar.trans (mul_one _).symm.le
    _ ≤ orderedTo .idle := mul_le_mul' le_rfl one_le_kstar

/-- An `INIT` begins a message. -/
theorem orderedTo_mul_initCalls_le (p : Phase) : orderedTo p * initCalls ≤ orderedTo .active := by
  have hinit : initCalls ≤ messageCalls :=
    (mul_one _).symm.le.trans (mul_le_mul' le_rfl one_le_kstar)
  calc orderedTo p * initCalls
      ≤ callOrder * messageCalls := mul_le_mul' (orderedTo_le_callOrder p) hinit
    _ = orderedTo .active := by simp only [callOrder, orderedCalls, orderedTo, mul_assoc]

/-- An `UPDATE` goes on with the message begun. -/
theorem orderedTo_mul_updateCalls_le : orderedTo .active * updateCalls ≤ orderedTo .active := by
  have hmessage : messageCalls * updateCalls ≤ messageCalls := by
    rw [messageCalls, mul_assoc]
    exact mul_le_mul' le_rfl kstar_mul_le_kstar
  simp only [orderedTo, mul_assoc]
  exact mul_le_mul' le_rfl (mul_le_mul' le_rfl (mul_le_mul' le_rfl hmessage))

/-- A `FINISH` ends a message. -/
theorem orderedTo_mul_finishCalls_le : orderedTo .active * finishCalls ≤ orderedTo .idle := by
  calc orderedTo .active * finishCalls
      = (orderedCalls * resetEvents)∗ * ((messageCalls * messageCalls∗ * finishCalls)∗
          * (messageCalls∗ * messageCalls * finishCalls)) := by simp only [orderedTo, mul_assoc]
    _ = (orderedCalls * resetEvents)∗ * ((messageCalls * messageCalls∗ * finishCalls)∗
          * (messageCalls * messageCalls∗ * finishCalls)) := by rw [Language.mul_self_kstar_comm]
    _ ≤ orderedTo .idle := mul_le_mul' le_rfl kstar_mul_le_kstar

/-- One more event inside the contract goes on with the pattern. -/
theorem append_event_mem_orderedTo {e : Event} {es : List Event} {p q : Phase} (hes : es ∈ orderedTo p)
    (he : e.after p = some q) : es ++ [e] ∈ orderedTo q := by
  cases e with
  | reset =>
    cases he
    exact orderedTo_mul_resetEvents_le p (Language.append_mem_mul hes rfl)
  | init =>
    cases he
    exact orderedTo_mul_initCalls_le p (Language.append_mem_mul hes rfl)
  | update payload =>
    cases p <;> cases he
    exact orderedTo_mul_updateCalls_le (Language.append_mem_mul hes ⟨payload, rfl⟩)
  | finish =>
    cases p <;> cases he
    exact orderedTo_mul_finishCalls_le (Language.append_mem_mul hes rfl)
  | rsvd => cases he

/-- A trace the automaton accepts is in the call order, by the phase it ends in. -/
theorem mem_orderedTo {es : List Event} {q : Phase} (h : phaseAfter es .idle = some q) :
    es ∈ orderedTo q := by
  induction es using List.reverseRecOn generalizing q with
  | nil =>
    cases h
    exact Language.append_mem_mul (Language.nil_mem_kstar _) (Language.nil_mem_kstar _)
  | append_singleton es e ih =>
    rw [phaseAfter_append, Option.bind_eq_some_iff] at h
    obtain ⟨p, hp, hafter⟩ := h
    have he : e.after p = some q := by simpa [phaseAfter] using hafter
    exact append_event_mem_orderedTo (ih hp) he

/-- The automaton accepts exactly the call order. -/
theorem phaseAfter_idle_iff (es : List Event) :
    (∃ q, phaseAfter es .idle = some q) ↔ es ∈ callOrder := by
  constructor
  · exact fun ⟨q, hq⟩ => orderedTo_le_callOrder q (mem_orderedTo hq)
  · intro hes
    obtain h | h := (Language.mem_add _ _ _).mp (callOrder_le hes)
    · exact ⟨_, h⟩
    · exact ⟨_, h⟩

end Sys2Proof.Machine

open Sys2Proof.Machine in
/-- Settles O38: a trace runs when the automaton of the phases accepts it, and that is the call order; any
other trace is a contract violation. -/
theorem tracesInCallOrderAreThoseThatRun : Obligations.TracesInCallOrderAreThoseThatRun := by
  unfold Obligations.TracesInCallOrderAreThoseThatRun
  intro trace
  refine ⟨(runTrace_next_iff trace State.reset).trans (phaseAfter_idle_iff trace), ?outcome⟩
  case outcome =>
    obtain ⟨t, hrun, -⟩ | ⟨hfault, -⟩ := runTrace_cases trace State.reset
    · exact .inl ⟨t, hrun⟩
    · exact .inr hfault

end
